-- ==== Sys2Proof/Word.lean ====
section
/-! DEFINITION. The two machine types: the 16-bit Word (00_scope.md R7) and the 8-bit byte of the console
(10_state.md R40). -/

namespace Sys2Proof

/-- "A *Word* is a 16-bit unsigned value. Every register and memory cell holds one Word." (R7) -/
abbrev Word := BitVec 16

/-- One console character: `read_char() -> byte`, `write_char(byte)` (R40). -/
abbrev Byte := BitVec 8

end Sys2Proof
end

