-- ==== Sys2Proof/Syntax.lean ====
section
/-! DEFINITION. The instructions as data: one constructor per row of spec/opcode_table.json. -/

namespace Sys2Proof

/-- The eight general registers (10_state.md R21). -/
inductive Reg where
  | r0 | r1 | r2 | r3 | r4 | r5 | r6 | r7
deriving DecidableEq, Repr

/-- The instruction set: the 25 rows of the encoding summary of 30_encoding.md (R84 to R96), in its order. Operands
are the fields of R85 as the word holds them, before any extension. -/
inductive Instr where
  /-- BR: condition mask `nzp`, PCoffset9 (R89, R161). -/
  | br (nzp : BitVec 3) (off : BitVec 9)
  /-- ADD, register form (R86, R140). -/
  | addReg (dr sr1 sr2 : Reg)
  /-- ADD, immediate form (R87, R141). -/
  | addImm (dr sr1 : Reg) (imm : BitVec 5)
  /-- LD: DR, PCoffset9 (R93, R180). -/
  | ld (dr : Reg) (off : BitVec 9)
  /-- ST: SR, PCoffset9 (R93, R183). -/
  | st (sr : Reg) (off : BitVec 9)
  /-- JSR: PCoffset11 (R91, R165). -/
  | jsr (off : BitVec 11)
  /-- JSRR: BaseR (R92, R166). -/
  | jsrr (base : Reg)
  /-- AND, register form (R86, R142). -/
  | andReg (dr sr1 sr2 : Reg)
  /-- AND, immediate form (R87, R143). -/
  | andImm (dr sr1 : Reg) (imm : BitVec 5)
  /-- LDR: DR, BaseR, offset6 (R94, R182). -/
  | ldr (dr base : Reg) (off : BitVec 6)
  /-- STR: SR, BaseR, offset6 (R94, R185). -/
  | str (sr base : Reg) (off : BitVec 6)
  /-- RTI, a fatal opcode (R96, R127). -/
  | rti
  /-- NOT: DR, SR (R88, R144). -/
  | not (dr sr : Reg)
  /-- LDI: DR, PCoffset9 (R93, R181). -/
  | ldi (dr : Reg) (off : BitVec 9)
  /-- STI: SR, PCoffset9 (R93, R184). -/
  | sti (sr : Reg) (off : BitVec 9)
  /-- JMP: BaseR; RET is JMP R7 (R90, R163, R164). -/
  | jmp (base : Reg)
  /-- RES, a fatal opcode (R96, R127). -/
  | res
  /-- LEA: DR, PCoffset9 (R93, R145). -/
  | lea (dr : Reg) (off : BitVec 9)
  /-- TRAP x20 (R202). -/
  | trapGetc
  /-- TRAP x21 (R203). -/
  | trapOut
  /-- TRAP x22 (R204). -/
  | trapPuts
  /-- TRAP x23 (R205). -/
  | trapIn
  /-- TRAP x24 (R207). -/
  | trapPutsp
  /-- TRAP x25 (R209). -/
  | trapHalt
  /-- TRAP with a vector that is none of the six (R210). -/
  | trapOther (vector : BitVec 8)
deriving DecidableEq, Repr

end Sys2Proof
end

