-- ==== Sys2Proof/WellFormed.lean ====
section
/-! DEFINITION. Which terms of `Instr` stand for a word. Field widths are in the types; the one relation left is that
`trapOther` carries a vector that names no service (44_trap.md R200, R210). -/

namespace Sys2Proof

/-- The six vectors with a native service: 0x20 GETC to 0x25 HALT (R200). -/
def isServiceVector (v : BitVec 8) : Bool :=
  v == 0x20#8 || v == 0x21#8 || v == 0x22#8 || v == 0x23#8 || v == 0x24#8 || v == 0x25#8

/-- Every instruction is well formed but a `trapOther` that carries a service's vector (R210). -/
def Instr.wf : Instr → Bool
  | .trapOther v => !isServiceVector v
  | .br _ _ | .addReg _ _ _ | .addImm _ _ _ | .ld _ _ | .st _ _ | .jsr _ | .jsrr _ | .andReg _ _ _
  | .andImm _ _ _ | .ldr _ _ _ | .str _ _ _ | .rti | .not _ _ | .ldi _ _ | .sti _ _ | .jmp _ | .res
  | .lea _ _ | .trapGetc | .trapOut | .trapPuts | .trapIn | .trapPutsp | .trapHalt => true

end Sys2Proof
end

