-- ==== Sys2Proof/Decode.lean ====
section
/-! DEFINITION. From a Word to an instruction (40_fetch_decode.md R122, R123) and back, by the formats of
30_encoding.md R84 to R99. -/

namespace Sys2Proof

/-! ### Register fields -/

/-- A 3-bit register field selects one of R0 to R7, with no other mask (10_state.md R22). -/
def Reg.ofBits (v : BitVec 3) : Reg :=
  match v.getLsbD 2, v.getLsbD 1, v.getLsbD 0 with
  | false, false, false => .r0
  | false, false, true => .r1
  | false, true, false => .r2
  | false, true, true => .r3
  | true, false, false => .r4
  | true, false, true => .r5
  | true, true, false => .r6
  | true, true, true => .r7

/-- The index of a register, as a register field holds it (R22). -/
def Reg.toBits : Reg → BitVec 3
  | .r0 => 0#3
  | .r1 => 1#3
  | .r2 => 2#3
  | .r3 => 3#3
  | .r4 => 4#3
  | .r5 => 5#3
  | .r6 => 6#3
  | .r7 => 7#3

/-! ### The opcode map -/

/-- The sixteen opcode behaviours (R84). -/
inductive Opcode where
  | br | add | ld | st | jsr | and | ldr | str | rti | not | ldi | sti | jmp | res | lea | trap
deriving DecidableEq, Repr

/-- The opcode map, exhaustive over the four bits with no default arm (R84, R123). -/
def Opcode.ofBits (v : BitVec 4) : Opcode :=
  match v.getLsbD 3, v.getLsbD 2, v.getLsbD 1, v.getLsbD 0 with
  | false, false, false, false => .br
  | false, false, false, true => .add
  | false, false, true, false => .ld
  | false, false, true, true => .st
  | false, true, false, false => .jsr
  | false, true, false, true => .and
  | false, true, true, false => .ldr
  | false, true, true, true => .str
  | true, false, false, false => .rti
  | true, false, false, true => .not
  | true, false, true, false => .ldi
  | true, false, true, true => .sti
  | true, true, false, false => .jmp
  | true, true, false, true => .res
  | true, true, true, false => .lea
  | true, true, true, true => .trap

/-- The number of an opcode (R84). -/
def Opcode.toBits : Opcode → BitVec 4
  | .br => 0x0#4
  | .add => 0x1#4
  | .ld => 0x2#4
  | .st => 0x3#4
  | .jsr => 0x4#4
  | .and => 0x5#4
  | .ldr => 0x6#4
  | .str => 0x7#4
  | .rti => 0x8#4
  | .not => 0x9#4
  | .ldi => 0xA#4
  | .sti => 0xB#4
  | .jmp => 0xC#4
  | .res => 0xD#4
  | .lea => 0xE#4
  | .trap => 0xF#4

/-! ### Fields of an instruction word (R85) -/

/-- `op`, bits [15:12]. -/
def fieldOp (w : Word) : BitVec 4 := w.extractLsb' 12 4

/-- The register field at bits [11:9]: DR, or SR of a store. -/
def fieldReg9 (w : Word) : Reg := Reg.ofBits (w.extractLsb' 9 3)

/-- The register field at bits [8:6]: SR1, SR of NOT, or BaseR. -/
def fieldReg6 (w : Word) : Reg := Reg.ofBits (w.extractLsb' 6 3)

/-- The register field at bits [2:0]: SR2. -/
def fieldReg0 (w : Word) : Reg := Reg.ofBits (w.extractLsb' 0 3)

/-- `nzp`, bits [11:9]. -/
def fieldNzp (w : Word) : BitVec 3 := w.extractLsb' 9 3

/-- `imm5`, bits [4:0]. -/
def fieldImm5 (w : Word) : BitVec 5 := w.extractLsb' 0 5

/-- `offset6`, bits [5:0]. -/
def fieldOff6 (w : Word) : BitVec 6 := w.extractLsb' 0 6

/-- `PCoffset9`, bits [8:0]. -/
def fieldOff9 (w : Word) : BitVec 9 := w.extractLsb' 0 9

/-- `PCoffset11`, bits [10:0]. -/
def fieldOff11 (w : Word) : BitVec 11 := w.extractLsb' 0 11

/-- `trapvect8`, bits [7:0]. -/
def fieldVect8 (w : Word) : BitVec 8 := w.extractLsb' 0 8

/-- `imm_flag`, bit 5: the mode of ADD and AND (R99). -/
def fieldImmFlag (w : Word) : Bool := w.getLsbD 5

/-- `long_flag`, bit 11: JSR when set, JSRR when clear (R99). -/
def fieldLongFlag (w : Word) : Bool := w.getLsbD 11

/-! ### Decoding -/

/-- The trap vector selects one of the six services, or none (44_trap.md R200). -/
def decodeTrap (v : BitVec 8) : Instr :=
  if v = 0x20#8 then .trapGetc
  else if v = 0x21#8 then .trapOut
  else if v = 0x22#8 then .trapPuts
  else if v = 0x23#8 then .trapIn
  else if v = 0x24#8 then .trapPutsp
  else if v = 0x25#8 then .trapHalt
  else .trapOther v

/-- Decoding one Word is total (R82): every Word is exactly one instruction of the table. Bits outside the fields are
not looked at (R98), and nothing but the Word is (R122). -/
def decodeWord (w : Word) : Instr :=
  match Opcode.ofBits (fieldOp w) with
  | .br => .br (fieldNzp w) (fieldOff9 w)
  | .add => if fieldImmFlag w then .addImm (fieldReg9 w) (fieldReg6 w) (fieldImm5 w)
            else .addReg (fieldReg9 w) (fieldReg6 w) (fieldReg0 w)
  | .ld => .ld (fieldReg9 w) (fieldOff9 w)
  | .st => .st (fieldReg9 w) (fieldOff9 w)
  | .jsr => if fieldLongFlag w then .jsr (fieldOff11 w) else .jsrr (fieldReg6 w)
  | .and => if fieldImmFlag w then .andImm (fieldReg9 w) (fieldReg6 w) (fieldImm5 w)
            else .andReg (fieldReg9 w) (fieldReg6 w) (fieldReg0 w)
  | .ldr => .ldr (fieldReg9 w) (fieldReg6 w) (fieldOff6 w)
  | .str => .str (fieldReg9 w) (fieldReg6 w) (fieldOff6 w)
  | .rti => .rti
  | .not => .not (fieldReg9 w) (fieldReg6 w)
  | .ldi => .ldi (fieldReg9 w) (fieldOff9 w)
  | .sti => .sti (fieldReg9 w) (fieldOff9 w)
  | .jmp => .jmp (fieldReg6 w)
  | .res => .res
  | .lea => .lea (fieldReg9 w) (fieldOff9 w)
  | .trap => decodeTrap (fieldVect8 w)

/-- Why a sequence of Words gives no instruction. -/
inductive DecodeError where
  /-- There is no Word to decode: an instruction is exactly one Word (R80). -/
  | noWord
deriving DecidableEq, Repr

/-- The decoder over a sequence of Words: the first Word's instruction and the Words after it. It refuses, by name,
only the empty sequence (R80, R82). -/
def decode : List Word → Except DecodeError (Instr × List Word)
  | [] => .error .noWord
  | w :: rest => .ok (decodeWord w, rest)

/-- The Words that hold `nbits` bits of `w`, the first Word least significant and at the lowest address. Every bit
above `nbits` is 0, and there is at least one Word. (DESIGN CHOICE, log 14: every row of the table is one Word.) -/
def tableWords (nbits w : Nat) : List Word :=
  (List.range (max 1 ((nbits + 15) / 16))).map fun k => BitVec.ofNat 16 ((w % 2 ^ nbits) / 2 ^ (16 * k))

/-- The instruction the decoder reads from an instruction whose bits are `w`; none when the decoder refuses or when
Words are left over, since no instruction is longer than one Word (R80). -/
def decodeTableWord (nbits w : Nat) : Option Instr :=
  match decode (tableWords nbits w) with
  | .ok (i, []) => some i
  | .ok (_, _ :: _) => none
  | .error _ => none

/-! ### Encoding

Ignored bits (R98) are encoded as the LC-3 architecture fixes them (I-FIX of 93_implementation_defined.md): NOT [5:0]
all ones, the others zero (PRESUMED, log 13). -/

/-- Formats ALU-reg (R86): opcode, DR, SR1, 0, two ignored bits, SR2. -/
def encAluReg (op : Opcode) (dr sr1 sr2 : Reg) : Word :=
  op.toBits ++ dr.toBits ++ sr1.toBits ++ 0b000#3 ++ sr2.toBits

/-- Format ALU-imm (R87): opcode, DR, SR1, 1, imm5. -/
def encAluImm (op : Opcode) (dr sr1 : Reg) (imm : BitVec 5) : Word :=
  op.toBits ++ dr.toBits ++ sr1.toBits ++ 1#1 ++ imm

/-- Format PC-relative (R93): opcode, DR or SR, PCoffset9. -/
def encPcRel (op : Opcode) (r : Reg) (off : BitVec 9) : Word :=
  op.toBits ++ r.toBits ++ off

/-- Format base+offset (R94): opcode, DR or SR, BaseR, offset6. -/
def encBaseOff (op : Opcode) (r base : Reg) (off : BitVec 6) : Word :=
  op.toBits ++ r.toBits ++ base.toBits ++ off

/-- Format TRAP (R95): opcode, four ignored bits, trapvect8. -/
def encTrap (v : BitVec 8) : Word :=
  Opcode.trap.toBits ++ 0#4 ++ v

/-- The Word of an instruction, by the formats of R86 to R96. -/
def encode : Instr → Word
  | .br nzp off => Opcode.br.toBits ++ nzp ++ off
  | .addReg dr sr1 sr2 => encAluReg .add dr sr1 sr2
  | .addImm dr sr1 imm => encAluImm .add dr sr1 imm
  | .ld dr off => encPcRel .ld dr off
  | .st sr off => encPcRel .st sr off
  | .jsr off => Opcode.jsr.toBits ++ 1#1 ++ off
  | .jsrr base => Opcode.jsr.toBits ++ 0b000#3 ++ base.toBits ++ 0#6
  | .andReg dr sr1 sr2 => encAluReg .and dr sr1 sr2
  | .andImm dr sr1 imm => encAluImm .and dr sr1 imm
  | .ldr dr base off => encBaseOff .ldr dr base off
  | .str sr base off => encBaseOff .str sr base off
  | .rti => Opcode.rti.toBits ++ 0#12
  | .not dr sr => Opcode.not.toBits ++ dr.toBits ++ sr.toBits ++ 0b111111#6
  | .ldi dr off => encPcRel .ldi dr off
  | .sti sr off => encPcRel .sti sr off
  | .jmp base => Opcode.jmp.toBits ++ 0#3 ++ base.toBits ++ 0#6
  | .res => Opcode.res.toBits ++ 0#12
  | .lea dr off => encPcRel .lea dr off
  | .trapGetc => encTrap 0x20#8
  | .trapOut => encTrap 0x21#8
  | .trapPuts => encTrap 0x22#8
  | .trapIn => encTrap 0x23#8
  | .trapPutsp => encTrap 0x24#8
  | .trapHalt => encTrap 0x25#8
  | .trapOther v => encTrap v

/-! ### The encoding summary as data (the mask and match table of 30_encoding.md, section 8) -/

/-- One row of the summary: its mnemonic as the spec's text has it, its match value and its mask. -/
structure Row where
  mnemonic : String
  bits : Word
  mask : Word
deriving DecidableEq, Repr

/-- The rows in the order in which they are tried. -/
def opcodeTable : List Row :=
  [⟨"BR", 0x0000, 0xF000⟩, ⟨"ADD (reg)", 0x1000, 0xF020⟩, ⟨"ADD (imm)", 0x1020, 0xF020⟩, ⟨"LD", 0x2000, 0xF000⟩,
   ⟨"ST", 0x3000, 0xF000⟩, ⟨"JSR", 0x4800, 0xF800⟩, ⟨"JSRR", 0x4000, 0xF800⟩, ⟨"AND (reg)", 0x5000, 0xF020⟩] ++
  [⟨"AND (imm)", 0x5020, 0xF020⟩, ⟨"LDR", 0x6000, 0xF000⟩, ⟨"STR", 0x7000, 0xF000⟩, ⟨"RTI", 0x8000, 0xF000⟩,
   ⟨"NOT", 0x9000, 0xF000⟩, ⟨"LDI", 0xA000, 0xF000⟩, ⟨"STI", 0xB000, 0xF000⟩, ⟨"JMP", 0xC000, 0xF000⟩] ++
  [⟨"RES", 0xD000, 0xF000⟩, ⟨"LEA", 0xE000, 0xF000⟩, ⟨"TRAP GETC", 0xF020, 0xF0FF⟩, ⟨"TRAP OUT", 0xF021, 0xF0FF⟩,
   ⟨"TRAP PUTS", 0xF022, 0xF0FF⟩, ⟨"TRAP IN", 0xF023, 0xF0FF⟩, ⟨"TRAP PUTSP", 0xF024, 0xF0FF⟩] ++
  [⟨"TRAP HALT", 0xF025, 0xF0FF⟩, ⟨"TRAP (other vector)", 0xF000, 0xF000⟩]

/-- A Word matches a row when its bits under the row's mask are the row's match value. -/
def Row.matchesWord (r : Row) (w : Word) : Bool := w &&& r.mask == r.bits

/-- The place in the table of the first row that a Word matches. -/
def firstRow (w : Word) : Option Nat := opcodeTable.findIdx? fun r => r.matchesWord w

/-- The place of an instruction's row in the table. -/
def Instr.rowIndex : Instr → Nat
  | .br _ _ => 0
  | .addReg _ _ _ => 1
  | .addImm _ _ _ => 2
  | .ld _ _ => 3
  | .st _ _ => 4
  | .jsr _ => 5
  | .jsrr _ => 6
  | .andReg _ _ _ => 7
  | .andImm _ _ _ => 8
  | .ldr _ _ _ => 9
  | .str _ _ _ => 10
  | .rti => 11
  | .not _ _ => 12
  | .ldi _ _ => 13
  | .sti _ _ => 14
  | .jmp _ => 15
  | .res => 16
  | .lea _ _ => 17
  | .trapGetc => 18
  | .trapOut => 19
  | .trapPuts => 20
  | .trapIn => 21
  | .trapPutsp => 22
  | .trapHalt => 23
  | .trapOther _ => 24

/-- The bits a format does not ignore: all but the `x` bits of its pattern (R86 to R96, R98). -/
def Instr.usedBits : Instr → Word
  | .br _ _ | .addImm _ _ _ | .ld _ _ | .st _ _ | .jsr _ | .andImm _ _ _ | .ldr _ _ _ | .str _ _ _
  | .ldi _ _ | .sti _ _ | .lea _ _ => 0xFFFF
  | .addReg _ _ _ | .andReg _ _ _ => 0xFFE7
  | .jsrr _ => 0xF9C0
  | .not _ _ => 0xFFC0
  | .jmp _ => 0xF1C0
  | .rti | .res => 0xF000
  | .trapGetc | .trapOut | .trapPuts | .trapIn | .trapPutsp | .trapHalt | .trapOther _ => 0xF0FF

end Sys2Proof
end

