-- ==== Sys2Proof/Machine/Bits.lean ====
section
/-! DEFINITION. The bit-field and extension helpers of 00_scope.md R9 and R10. -/

namespace Sys2Proof.Machine

/-- `sext_N` of an N-bit field value (R9): the field's most significant bit fills the bits above it. -/
def sext {n : Nat} (v : BitVec n) : Word := v.signExtend 16

/-- `zext_16` of a byte (R10). -/
def zext16 (b : Byte) : Word := b.setWidth 16

/-- `lo8`: bits [7:0] (R10). -/
def lo8 (w : Word) : Byte := w.extractLsb' 0 8

/-- `hi8`: bits [15:8] (R10). -/
def hi8 (w : Word) : Byte := w.extractLsb' 8 8

end Sys2Proof.Machine
end

