-- ==== Sys2Proof/Config.lean ====
section
/-! DEFINITION. The implementation parameters of 00_scope.md R6, at the values the spec gives them, and the free
values: what the spec leaves to the host of the machine. A free value is opaque, so no proof can see what it is. -/

namespace Sys2Proof

/-- The three readings of PUTSP's stop rule that decision D10 names. -/
inductive PutspMode where
  /-- Write the low byte; stop if the high byte is zero, else write it (R207, the default). -/
  | lowThenTestHigh
  /-- A word whose high byte is zero is not written at all (D10). -/
  | stopBeforeWord
  /-- Stop at a 0x0000 word; skip a zero high byte otherwise (D10). -/
  | zeroWordOnly
deriving DecidableEq, Repr

namespace Config

/-- `PC_START` (R6, R29). -/
def pcStart : Word := 0x3000#16

/-- `COND_RESET`: no flag set (R6, R34; log 12). -/
def condReset : BitVec 3 := 0#3

/-- `FLAG_P` (R30). -/
def flagP : BitVec 3 := 1#3

/-- `FLAG_Z` (R30). -/
def flagZ : BitVec 3 := 2#3

/-- `FLAG_N` (R30). -/
def flagN : BitVec 3 := 4#3

/-- `KBSR_ADDR`, keyboard status (R57). -/
def kbsrAddr : Word := 0xFE00#16

/-- `KBDR_ADDR`, keyboard data (R57). -/
def kbdrAddr : Word := 0xFE02#16

/-- `DSR_ADDR`, display status: plain storage (R57, R58). -/
def dsrAddr : Word := 0xFE04#16

/-- `DDR_ADDR`, display data: plain storage (R57, R58). -/
def ddrAddr : Word := 0xFE06#16

/-- `MCR_ADDR`, machine control: plain storage (R57, R58). -/
def mcrAddr : Word := 0xFFFE#16

/-- `KBSR_READY` (R54, D4). -/
def kbsrReady : Word := 0x8000#16

/-- `PUTSP_MODE` (R6, R207, D10; log 10). -/
def putspMode : PutspMode := .lowThenTestHigh

/-- `GETC_KEEPS_HIGH`: false, GETC and IN clear bits [15:8] of R0 (R6, R202, D7; log 11). -/
def getcKeepsHigh : Bool := false

/-- `TRAP_SETS_FLAGS`: false, no trap service writes `cond` (R6, R200, D8; log 11). -/
def trapSetsFlags : Bool := false

/-- `HALT_MESSAGE`: empty, the block writes nothing at HALT (R6, R209, D12; log 11). -/
def haltMessage : List Byte := []

/-- `IN_PROMPT`: OPEN, any byte string (R6, R205, D11; log 9). -/
opaque inPrompt : List Byte

/-- The free `key_available()` answers, those past the scripted ones, as runs: run `k` is this many answers true and then
one answer false; none when the answers stay true for ever (R41, I-UB6; log 2). -/
opaque freeKeyRun : Nat → Option Nat

/-- The free `read_char()` bytes, those past the scripted ones, as runs: run `k` is this many non-zero bytes and then one
byte 0x00; none when no byte 0x00 ever comes (R42, I-UB7; log 2). -/
opaque freeCharRun : Nat → Option Nat

/-- The value, less one, of non-zero byte `j` of run `k` of the free bytes (R42, I-UB7; log 2). -/
opaque freeChar : Nat → Nat → Fin 255

end Config

end Sys2Proof
end

