-- ==== Sys2Proof/Machine/State.lean ====
section
/-! DEFINITION. The whole state of the block (10_state.md: register file, run state, memory storage, console output),
the console's answers still to come as an input held as data, the reasons a step can stop, and the state after reset. -/

namespace Sys2Proof.Machine

/-- The eight general registers, each one Word (R21). -/
structure RegFile where
  r0 : Word
  r1 : Word
  r2 : Word
  r3 : Word
  r4 : Word
  r5 : Word
  r6 : Word
  r7 : Word
deriving DecidableEq, Repr

/-- The reasons of a fatal error, with the value each records (60_exceptions.md R232). -/
inductive FatalReason where
  /-- `InvalidOpcode(op)`: RTI (8) or RES (0xD) was decoded. -/
  | invalidOpcode (op : BitVec 4)
  /-- `InvalidTrapVector(v)`: TRAP with a vector that is none of the six. -/
  | invalidTrapVector (v : BitVec 8)
deriving DecidableEq, Repr

/-- The run state (R35). -/
inductive RunState where
  | running
  | halted
  | fatal (reason : FatalReason)
deriving DecidableEq, Repr

/-- The storage array M (R37), as a list of (address, Word) pairs, addresses strictly rising, no Word 0x0000: an
address that is not listed reads 0x0000, its value at creation (R37; DEDUCED from R52 that the unit is the Word, log 1). -/
abbrev Memory := List (Nat × Word)

/-- What an unlisted address reads as: "At creation every cell is 0x0000" (R37). -/
def Memory.unlisted : Word := 0x0000#16

/-- The canonical form: strictly rising addresses inside the 65536 Words of R37, none listed with the value an
unlisted address reads as. -/
abbrev Memory.wf (m : Memory) : Prop :=
  m.Pairwise (fun c d => c.1 < d.1) ∧ ∀ c ∈ m, c.1 < 65536 ∧ c.2 ≠ Memory.unlisted

/-- The console's answers still to come, in call order (R41, R42): an input of the block, not a part of it (log 2).
Scripted answers come first; past them the answers are free values of Config, counted in runs. -/
structure Console where
  /-- The answers the next `key_available()` calls give. -/
  keyAnswers : List Bool
  /-- The bytes the next `read_char()` calls return. -/
  charAnswers : List Byte
  /-- True when no byte ever arrives after `charAnswers`: a `read_char()` then never returns (R42). -/
  ended : Bool
  /-- The run of free `key_available()` answers that the next free one belongs to (`Config.freeKeyRun`). -/
  keyRun : Nat
  /-- How many answers true of that run have been given. -/
  keyDone : Nat
  /-- The run of free bytes that the next free one belongs to (`Config.freeCharRun`). -/
  charRun : Nat
  /-- How many non-zero bytes of that run have been returned. -/
  charDone : Nat
deriving DecidableEq, Repr

/-- The state of the machine between two steps. -/
structure State where
  /-- R0 to R7 (R21). -/
  regs : RegFile
  /-- The program counter, a word address (R26). -/
  pc : Word
  /-- The condition flags (R30). -/
  cond : BitVec 3
  /-- The run state (R35). -/
  run : RunState
  /-- The storage array (R37). -/
  mem : Memory
  /-- The bytes passed to `write_char`, oldest first (R38). -/
  out : List Byte
  /-- The console's answers still to come (R41, R42). -/
  console : Console
deriving DecidableEq, Repr

/-- Why a step gives no next state. The block's own fatal errors are no faults here: they are next states with `run`
= Fatal (R125). -/
inductive Fault where
  /-- Raised by `step` when `run` is Halted or Fatal: "no step is enabled and no state changes" (R120). Safe. -/
  | stopped
  /-- Raised by GETC and IN when `read_char()` never returns: a hang, no final state (R42, R236, D16). Safe. -/
  | inputNeverArrives
  /-- Raised by PUTS and PUTSP when no stop word is ever met: a hang, no final state (R208, R236, D16; log 7). Safe. -/
  | stringNeverEnds
deriving DecidableEq, Repr

/-- Why an instruction has no meaning in the model. -/
inductive Refusal where
  /-- Raised by an arm of `exec` whose instruction has no meaning yet; no arm does. Safe. -/
  | notModelled (mnemonic : String)
deriving DecidableEq, Repr

/-- The machine after the reset sequence of 70_reset_and_hazards.md R250 with an image of no words. Every block value is
the spec's; the console's fields are the model's choice (DESIGN CHOICE, log 3). -/
def State.reset : State where
  regs := ⟨0, 0, 0, 0, 0, 0, 0, 0⟩
  pc := Config.pcStart
  cond := Config.condReset
  run := .running
  mem := []
  out := []
  console := ⟨[], [], false, 0, 0, 0, 0⟩

end Sys2Proof.Machine
end

