-- ==== Sys2Proof/Machine/Flags.lean ====
section
/-! DEFINITION. The condition flags: the one flag computation of the block (10_state.md R30 to R32). There is no carry,
overflow or borrow flag (41_alu.md R139). -/

namespace Sys2Proof.Machine

/-- The flag of a value: Zero, else Negative by bit 15, else Positive (R31). -/
def condOf (v : Word) : BitVec 3 :=
  if v = 0x0000#16 then Config.flagZ
  else if v.getLsbD 15 then Config.flagN
  else Config.flagP

/-- `setcc(v)` (R31). -/
def setcc (v : Word) (s : State) : State := { s with cond := condOf v }

/-- The test of BR: the mask has a bit in common with the flags (R161). -/
def branchTaken (nzp : BitVec 3) (s : State) : Bool := nzp &&& s.cond != 0#3

/-- A value a trap service put into R0 sets the flags only under `TRAP_SETS_FLAGS`, which is false (R200, D8). -/
def trapFlags (v : Word) (s : State) : State :=
  if Config.trapSetsFlags then setcc v s else s

end Sys2Proof.Machine
end

