-- ==== Sys2Proof/Machine/Ops.lean ====
section
/-! DEFINITION. The named operations over registers, memory, the console and the run state. Every instruction is made
of these. -/

namespace Sys2Proof.Machine

/-! ### Registers (10_state.md R20 to R26) -/

/-- One register of the file. -/
def RegFile.get (f : RegFile) : Reg → Word
  | .r0 => f.r0
  | .r1 => f.r1
  | .r2 => f.r2
  | .r3 => f.r3
  | .r4 => f.r4
  | .r5 => f.r5
  | .r6 => f.r6
  | .r7 => f.r7

/-- The file with one register written. No register is hardwired (R21). -/
def RegFile.set (f : RegFile) (r : Reg) (v : Word) : RegFile :=
  match r with
  | .r0 => { f with r0 := v }
  | .r1 => { f with r1 := v }
  | .r2 => { f with r2 := v }
  | .r3 => { f with r3 := v }
  | .r4 => { f with r4 := v }
  | .r5 => { f with r5 := v }
  | .r6 => { f with r6 := v }
  | .r7 => { f with r7 := v }

/-- `x[i]` (R11). -/
def readReg (r : Reg) (s : State) : Word := s.regs.get r

/-- `x[i] <- v` (R11). -/
def writeReg (r : Reg) (v : Word) (s : State) : State := { s with regs := s.regs.set r v }

/-- `pc <- target` (R11). -/
def setPc (v : Word) (s : State) : State := { s with pc := v }

/-- `run <- r` (R11, R35). -/
def setRun (r : RunState) (s : State) : State := { s with run := r }

/-- The console's answers still to come, after a call has taken one. -/
def setConsole (c : Console) (s : State) : State := { s with console := c }

/-- A flag-setting instruction writes its result to DR, then sets the flags from it (R31). -/
def writeResult (dr : Reg) (v : Word) (s : State) : State := setcc v (writeReg dr v s)

/-- The return address: R7 gets the post-fetch PC (R24, R160). -/
def saveReturn (s : State) : State := writeReg .r7 s.pc s

/-! ### Memory storage (20_memory.md R50 to R52, R55, R60) -/

/-- The Word stored at an address; an unlisted address reads 0x0000 (R37). -/
def Memory.read : Memory → Nat → Word
  | [], _ => Memory.unlisted
  | (b, w) :: m, a => if a = b then w else Memory.read m a

/-- The storage with no entry for an address. -/
def Memory.erase (m : Memory) (a : Nat) : Memory := m.filter fun c => c.1 != a

/-- The storage with an entry for an address, at its place in the rising order. -/
def Memory.insert : Memory → Nat → Word → Memory
  | [], a, v => [(a, v)]
  | (b, w) :: m, a, v =>
    if a < b then (a, v) :: (b, w) :: m
    else if a = b then (a, v) :: m
    else (b, w) :: Memory.insert m a v

/-- `M[a] <- v`, in the canonical form: the value an unlisted address reads as is not listed. -/
def Memory.write (m : Memory) (a : Nat) (v : Word) : Memory :=
  if v = Memory.unlisted then Memory.erase m a else Memory.insert m a v

/-- `load_image(origin, words)`: the words in order from `origin`, stopping at the end of storage without wrapping
(R60). -/
def Memory.loadImage (m : Memory) (origin : Nat) : List Word → Memory
  | [] => m
  | w :: ws => if 0xFFFF < origin then m else Memory.loadImage (Memory.write m origin w) (origin + 1) ws

/-- `M[a]`, the storage cell itself, with no side effect (R11). -/
def peek (a : Word) (s : State) : Word := Memory.read s.mem a.toNat

/-- `M[a] <- v` on the state (R11). -/
def poke (a : Word) (v : Word) (s : State) : State := { s with mem := Memory.write s.mem a.toNat v }

/-! ### The console (10_state.md R38, R41 to R43) -/

/-- Whether a run of free answers, of the length given, has none of its first kind left. -/
def runOver (length : Option Nat) (done : Nat) : Bool :=
  match length with
  | some n => decide (n ≤ done)
  | none => false

/-- Whether the next free byte is the 0x00 that ends its run. -/
def Console.zeroByteNext (c : Console) : Bool := runOver (Config.freeCharRun c.charRun) c.charDone

/-- The next free byte (R42, I-UB7). -/
def Console.freeByte (c : Console) : Byte :=
  if c.zeroByteNext then 0x00#8 else BitVec.ofNat 8 ((Config.freeChar c.charRun c.charDone).val + 1)

/-- The console after a free byte has been taken. -/
def Console.afterFreeByte (c : Console) : Console :=
  { c with charRun := if c.zeroByteNext then c.charRun + 1 else c.charRun,
           charDone := if c.zeroByteNext then 0 else c.charDone + 1 }

/-- Whether the next free `key_available()` answer is the false that ends its run. -/
def Console.notReadyNext (c : Console) : Bool := runOver (Config.freeKeyRun c.keyRun) c.keyDone

/-- The console after a free `key_available()` answer has been taken. -/
def Console.afterFreeKey (c : Console) : Console :=
  { c with keyRun := if c.notReadyNext then c.keyRun + 1 else c.keyRun,
           keyDone := if c.notReadyNext then 0 else c.keyDone + 1 }

/-- `read_char()`: the next byte, which is consumed; none when it never returns (R42). -/
def Console.readChar (c : Console) : Option (Byte × Console) :=
  match c.charAnswers with
  | b :: rest => some (b, { c with charAnswers := rest })
  | [] => if c.ended then none else some (c.freeByte, c.afterFreeByte)

/-- The draw behind one `key_available()` call: the next scripted answer, else a free one (R41). -/
def Console.drawKey (c : Console) : Bool × Console :=
  match c.keyAnswers with
  | k :: rest => (k, { c with keyAnswers := rest })
  | [] => (!c.notReadyNext, c.afterFreeKey)

/-- `key_available()`: the draw, under R41's constraint that after the answer true the next `read_char()` returns; where
no byte ever comes the answer is therefore false (log 4). -/
def Console.keyAvailable (c : Console) : Bool × Console :=
  (c.drawKey.1 && c.drawKey.2.readChar.isSome, c.drawKey.2)

/-- `write_char(b)` appends to `out` (R38, R43). -/
def writeChar (b : Byte) (s : State) : State := { s with out := s.out ++ [b] }

/-- Several `write_char` calls in order (R38). -/
def writeChars (bs : List Byte) (s : State) : State := { s with out := s.out ++ bs }

/-! ### Memory access (R53 to R56) -/

/-- `kbsr_refresh()` (R54): the pending character is obtained by a `read_char()`, which consumes it (D15). -/
def kbsrRefresh (s : State) : State :=
  let k := s.console.keyAvailable
  match k.1, k.2.readChar with
  | true, some (b, c) =>
    setConsole c (poke Config.kbdrAddr (zext16 b) (poke Config.kbsrAddr Config.kbsrReady s))
  | true, none => setConsole k.2 (poke Config.kbsrAddr 0x0000#16 s)
  | false, _ => setConsole k.2 (poke Config.kbsrAddr 0x0000#16 s)

/-- The state after the side effect of `MemRead(a, 1)`: only a read of KBSR has one (R53, R56). -/
def afterRead (a : Word) (s : State) : State := if a = Config.kbsrAddr then kbsrRefresh s else s

/-- `MemRead(a, 1)`: the Word read and the state after it (R53). -/
def memRead (a : Word) (s : State) : Word × State := (peek a (afterRead a s), afterRead a s)

/-- `MemWrite(a, 1, v)`: plain storage at every address, device addresses included (R55). -/
def memWrite (a : Word) (v : Word) (s : State) : State := poke a v s

/-! ### The step's first half (40_fetch_decode.md R121) -/

/-- Fetch: `MemRead` at `pc`, then the increment modulo 65536 (R121). -/
def fetch (s : State) : Word × State :=
  let r := memRead s.pc s
  (r.1, setPc (r.2.pc + 1) r.2)

/-! ### Fatal errors (60_exceptions.md R231) -/

/-- `raise Fatal(reason)`: what the step did before it remains, and nothing more is done (R13, R231). There is no
handler and no return from it (R234). -/
def raiseFatal (r : FatalReason) (s : State) : State := setRun (.fatal r) s

/-! ### Strings of PUTS and PUTSP (44_trap.md R204, R207) -/

/-- One word of PUTS: nothing and stop at 0x0000, else the low byte and go on (R204). -/
def putsWord (w : Word) : List Byte × Bool :=
  if w = 0x0000#16 then ([], false) else ([lo8 w], true)

/-- One word of PUTSP, under each reading of D10; R207 is `lowThenTestHigh`. -/
def putspWord : PutspMode → Word → List Byte × Bool
  | .lowThenTestHigh, w => if hi8 w = 0x00#8 then ([lo8 w], false) else ([lo8 w, hi8 w], true)
  | .stopBeforeWord, w => if hi8 w = 0x00#8 then ([], false) else ([lo8 w, hi8 w], true)
  | .zeroWordOnly, w =>
    if w = 0x0000#16 then ([], false)
    else if hi8 w = 0x00#8 then ([lo8 w], true)
    else ([lo8 w, hi8 w], true)

/-- The loop of PUTS and PUTSP from address `a`: read a word by `MemRead`, write its bytes, stop or go on at the next
address modulo 65536 (R204, R207). None when the words counted by the first argument hold no stop word. -/
def stringLoop (word : Word → List Byte × Bool) : Nat → Word → State → Option State
  | 0, _, _ => none
  | n + 1, a, s =>
    let r := memRead a s
    let t := writeChars (word r.1).1 r.2
    if (word r.1).2 then stringLoop word n (a + 1) t else some t

/-- How many words a string is followed for. One pass of the memory polls KBSR once, and only that poll changes what the
next pass reads. So a loop that goes on past the scripted answers, past the end of each run of free answers that ends,
and for two passes more, has no stop word to meet and none to come: it is the hang of R208 (log 7; proved in
Laws/Strings.lean). -/
def stringBound (s : State) : Nat :=
  65536 * ((Config.freeKeyRun s.console.keyRun).getD 0 + (Config.freeCharRun s.console.charRun).getD 0) +
    65536 * (s.console.keyAnswers.length + s.console.charAnswers.length) + 131072

end Sys2Proof.Machine
end

