-- ==== Sys2Proof/Machine/Operands.lean ====
section
/-! DEFINITION. Every operand form of the block (30_encoding.md R97, 43_memory_access.md R179). The state is the one
after the fetch, so its `pc` is the post-fetch PC (R26). Every sum wraps modulo 65536 (R51). -/

namespace Sys2Proof.Machine

/-- A PC-relative address or target: `p + sext_N(offset)`, for the 9-bit and the 11-bit offset (R97, R179). -/
def pcRel {n : Nat} (off : BitVec n) (s : State) : Word := s.pc + sext off

/-- A base + offset address: `x[BaseR] + sext_6(offset6)` (R179). -/
def baseOff (base : Reg) (off : BitVec 6) (s : State) : Word := readReg base s + sext off

/-- An indirect address: the pointer read through memory at the PC-relative address, and the state after that read
(R179). -/
def indirect (off : BitVec 9) (s : State) : Word × State := memRead (pcRel off s) s

/-- The Word GETC and IN put into R0 for a character: zero-extended, unless `GETC_KEEPS_HIGH` (R202, R205, D7). -/
def charWord (old : Word) (c : Byte) : Word :=
  if Config.getcKeepsHigh then (old &&& 0xFF00#16) ||| zext16 c else zext16 c

/-- The address of a string of PUTS and PUTSP: R0 (R204, R207). -/
def stringStart (s : State) : Word := readReg .r0 s

/-- The loop of PUTS and PUTSP on the string at R0, followed for `stringBound` words; none when it has no stop word. One
pass of the memory is tried first, which is the same loop cut shorter: a string that ends there is followed without a
look at the free values. -/
def stringRun (word : Word → List Byte × Bool) (s : State) : Option State :=
  match stringLoop word 65536 (stringStart s) s with
  | some t => some t
  | none => stringLoop word (stringBound s) (stringStart s) s

end Sys2Proof.Machine
end

