-- ==== Sys2Proof/Machine/Alu.lean ====
section
/-! DEFINITION. ADD, AND, NOT and LEA (41_alu.md). No memory access, no error condition. -/

namespace Sys2Proof.Machine

/-- ADD, register form (R140). -/
def execAddReg (dr sr1 sr2 : Reg) (s : State) : Host.Outcome State Fault Refusal :=
  .next (writeResult dr (readReg sr1 s + readReg sr2 s) s)

/-- ADD, immediate form (R141). -/
def execAddImm (dr sr1 : Reg) (imm : BitVec 5) (s : State) : Host.Outcome State Fault Refusal :=
  .next (writeResult dr (readReg sr1 s + sext imm) s)

/-- AND, register form (R142). -/
def execAndReg (dr sr1 sr2 : Reg) (s : State) : Host.Outcome State Fault Refusal :=
  .next (writeResult dr (readReg sr1 s &&& readReg sr2 s) s)

/-- AND, immediate form (R143). -/
def execAndImm (dr sr1 : Reg) (imm : BitVec 5) (s : State) : Host.Outcome State Fault Refusal :=
  .next (writeResult dr (readReg sr1 s &&& sext imm) s)

/-- NOT (R144). -/
def execNot (dr sr : Reg) (s : State) : Host.Outcome State Fault Refusal :=
  .next (writeResult dr (~~~ readReg sr s) s)

/-- LEA: the address itself, and the flags from it (R145). -/
def execLea (dr : Reg) (off : BitVec 9) (s : State) : Host.Outcome State Fault Refusal :=
  .next (writeResult dr (pcRel off s) s)

end Sys2Proof.Machine
end

