-- ==== Sys2Proof/Machine/ControlFlow.lean ====
section
/-! DEFINITION. BR, JMP, JSR and JSRR (42_control_flow.md). No delay slot, no alignment, no fault (R160). -/

namespace Sys2Proof.Machine

/-- BR (R161): the flags are read, not written. -/
def execBr (nzp : BitVec 3) (off : BitVec 9) (s : State) : Host.Outcome State Fault Refusal :=
  .next (if branchTaken nzp s then setPc (pcRel off s) s else s)

/-- JMP, and RET with BaseR = 7 (R163, R164). -/
def execJmp (base : Reg) (s : State) : Host.Outcome State Fault Refusal :=
  .next (setPc (readReg base s) s)

/-- JSR (R165): the target is taken from the post-fetch PC, which the write of R7 does not change. -/
def execJsr (off : BitVec 11) (s : State) : Host.Outcome State Fault Refusal :=
  .next (setPc (pcRel off s) (saveReturn s))

/-- JSRR (R166): R7 is written first and BaseR read after it, so JSRR R7 goes on at the post-fetch PC (D14, log 8). -/
def execJsrr (base : Reg) (s : State) : Host.Outcome State Fault Refusal :=
  let t := saveReturn s
  .next (setPc (readReg base t) t)

end Sys2Proof.Machine
end

