-- ==== Sys2Proof/Machine/FatalOpcodes.lean ====
section
/-! DEFINITION. The two fatal opcodes, RTI and RES (40_fetch_decode.md R127). -/

namespace Sys2Proof.Machine

/-- RTI: `raise Fatal(InvalidOpcode(0x8))`, whatever the low 12 bits (R127). -/
def execRti (s : State) : Host.Outcome State Fault Refusal :=
  .next (raiseFatal (.invalidOpcode 0x8#4) s)

/-- RES: `raise Fatal(InvalidOpcode(0xD))`, whatever the low 12 bits (R127). -/
def execRes (s : State) : Host.Outcome State Fault Refusal :=
  .next (raiseFatal (.invalidOpcode 0xD#4) s)

end Sys2Proof.Machine
end

