-- ==== Sys2Proof/Machine/MemoryAccess.lean ====
section
/-! DEFINITION. LD, LDI, LDR, ST, STI and STR (43_memory_access.md). Every load and pointer read is a `MemRead`, every
store a `MemWrite`; loads set the flags, stores do not; no address faults (R179). -/

namespace Sys2Proof.Machine

/-- The common end of the loads: `x[DR] <- MemRead(ea, 1)`, then the flags from it (R180 to R182). -/
def loadInto (dr : Reg) (ea : Word) (s : State) : State :=
  let r := memRead ea s
  writeResult dr r.1 r.2

/-- LD (R180). -/
def execLd (dr : Reg) (off : BitVec 9) (s : State) : Host.Outcome State Fault Refusal :=
  .next (loadInto dr (pcRel off s) s)

/-- LDI (R181): two reads, each of which may refresh KBSR. -/
def execLdi (dr : Reg) (off : BitVec 9) (s : State) : Host.Outcome State Fault Refusal :=
  let p := indirect off s
  .next (loadInto dr p.1 p.2)

/-- LDR (R182): the base is read before DR is written. -/
def execLdr (dr base : Reg) (off : BitVec 6) (s : State) : Host.Outcome State Fault Refusal :=
  .next (loadInto dr (baseOff base off s) s)

/-- ST (R183). -/
def execSt (sr : Reg) (off : BitVec 9) (s : State) : Host.Outcome State Fault Refusal :=
  .next (memWrite (pcRel off s) (readReg sr s) s)

/-- STI (R184): the pointer read may refresh KBSR; the store does not. -/
def execSti (sr : Reg) (off : BitVec 9) (s : State) : Host.Outcome State Fault Refusal :=
  let p := indirect off s
  .next (memWrite p.1 (readReg sr p.2) p.2)

/-- STR (R185). -/
def execStr (sr base : Reg) (off : BitVec 6) (s : State) : Host.Outcome State Fault Refusal :=
  .next (memWrite (baseOff base off s) (readReg sr s) s)

end Sys2Proof.Machine
end

