-- ==== Sys2Proof/Machine/Trap.lean ====
section
/-! DEFINITION. TRAP: the six native services and the invalid vectors (44_trap.md). Every one first writes the
post-fetch PC to R7 (R200) and leaves `pc` where it is. -/

namespace Sys2Proof.Machine

/-- A character read by GETC or IN goes to R0, without the flags (R202, R205, D8). -/
def receiveChar (c : Byte) (s : State) : State :=
  let v := charWord (readReg .r0 s) c
  trapFlags v (writeReg .r0 v s)

/-- TRAP x20, GETC (R202): one character into R0, no echo; a hang when none ever comes (R42). -/
def execTrapGetc (s : State) : Host.Outcome State Fault Refusal :=
  let t := saveReturn s
  match t.console.readChar with
  | some (b, c) => .next (receiveChar b (setConsole c t))
  | none => .fault .inputNeverArrives

/-- TRAP x21, OUT (R203): the low byte of R0. -/
def execTrapOut (s : State) : Host.Outcome State Fault Refusal :=
  let t := saveReturn s
  .next (writeChar (lo8 (readReg .r0 t)) t)

/-- TRAP x22, PUTS (R204); a hang exactly when no stop word is ever met (R208, R236). -/
def execTrapPuts (s : State) : Host.Outcome State Fault Refusal :=
  let t := saveReturn s
  match stringRun putsWord t with
  | some u => .next u
  | none => .fault .stringNeverEnds

/-- TRAP x23, IN (R205): prompt, one character, its echo, R0; a hang when none ever comes (R42). -/
def execTrapIn (s : State) : Host.Outcome State Fault Refusal :=
  let t := writeChars Config.inPrompt (saveReturn s)
  match t.console.readChar with
  | some (b, c) => .next (receiveChar b (writeChar b (setConsole c t)))
  | none => .fault .inputNeverArrives

/-- TRAP x24, PUTSP (R207, R208), in the mode of the configuration (D10). In the mode of R207 every string has a stop
word, since KBSR reads 0x0000 or KBDR holds a byte. -/
def execTrapPutsp (s : State) : Host.Outcome State Fault Refusal :=
  let t := saveReturn s
  match stringRun (putspWord Config.putspMode) t with
  | some u => .next u
  | none => .fault .stringNeverEnds

/-- TRAP x25, HALT (R209): R7 is already written; the message of the block is empty (D12). -/
def execTrapHalt (s : State) : Host.Outcome State Fault Refusal :=
  .next (setRun .halted (writeChars Config.haltMessage (saveReturn s)))

/-- TRAP with any other vector (R210): fatal, after the write of R7. -/
def execTrapOther (v : BitVec 8) (s : State) : Host.Outcome State Fault Refusal :=
  .next (raiseFatal (.invalidTrapVector v) (saveReturn s))

end Sys2Proof.Machine
end

