-- ==== Sys2Proof/Machine/Step.lean ====
section
/-! DEFINITION. One step (40_fetch_decode.md R120, R125), and how a word is placed for the next fetch. -/

namespace Sys2Proof.Machine

/-- The step of a running machine: fetch, decode, dispatch (R125). -/
def step (s : State) : Host.Outcome State Fault Refusal :=
  match s.run with
  | .running => exec (decodeWord (fetch s).1) (fetch s).2
  | .halted => .fault .stopped
  | .fatal _ => .fault .stopped

/-- The address at which `withFetchWord` places a word: `pc`, but PC_START when `pc` is KBSR, whose cell the fetch itself
refreshes before it is read (R128), so that no word placed there can be fetched (log 15). -/
def State.fetchPlace (s : State) : Word := if s.pc = Config.kbsrAddr then Config.pcStart else s.pc

/-- `s` running, with the instruction whose bits are `w` stored where the next step fetches (log 15). -/
def State.withFetchWord (s : State) (nbits w : Nat) : State :=
  setRun .running (setPc s.fetchPlace (poke s.fetchPlace (BitVec.ofNat 16 (w % 2 ^ nbits)) s))

/-- The machine after the reset sequence of R250 with an image (R60). -/
def State.boot (origin : Word) (words : List Word) : State :=
  { State.reset with mem := Memory.loadImage [] origin.toNat words }

end Sys2Proof.Machine
end

