-- ==== Sys2Proof/Safety.lean ====
section
/-! DEFINITION. The terms in which claims are made: frames, the invariant of the machine, what the spec's whole-machine
rules say each instruction writes, and PUTS and PUTSP as the unbounded loops of the spec. -/

namespace Sys2Proof.Machine

/-! ### Frames -/

/-- Every general register but those listed reads as before. -/
def RegsKeptBut (ds : List Reg) (s t : State) : Prop := ∀ r, r ∉ ds → readReg r t = readReg r s

/-- Every cell of the storage reads as before. -/
def MemKept (s t : State) : Prop := ∀ a, peek a t = peek a s

/-- Every cell of the storage but one reads as before. -/
def MemKeptBut (a : Word) (s t : State) : Prop := ∀ b, b ≠ a → peek b t = peek b s

/-- The run state, the console output and the console's input are as before. -/
def IoKept (s t : State) : Prop := t.run = s.run ∧ t.out = s.out ∧ t.console = s.console

/-! ### The shapes of an instruction's effect -/

/-- `c` is the flag of `v` by its signed interpretation: 2 for zero, 4 for a negative value, 1 for a positive one
(R30, R31). -/
def FlagsSay (v : Word) (c : BitVec 3) : Prop :=
  (v.toInt = 0 → c = 2#3) ∧ (v.toInt < 0 → c = 4#3) ∧ (0 < v.toInt → c = 1#3)

/-- A flag-setting instruction without memory access, from `s` to `t`: DR gets `v`, `cond` is the flag of `v`, and
nothing else changes. -/
def WritesResult (dr : Reg) (v : Word) (s t : State) : Prop :=
  readReg dr t = v ∧ FlagsSay v t.cond ∧ RegsKeptBut [dr] s t ∧ t.pc = s.pc ∧ MemKept s t ∧ IoKept s t

/-- A load, from `s` to `t`, whose last read gave the Word and the state `r`: DR gets the Word, `cond` is its flag, and
nothing else changes but what the reads did (the KBSR refresh of R54). -/
def Loads (dr : Reg) (r : Word × State) (s t : State) : Prop :=
  readReg dr t = r.1 ∧ FlagsSay r.1 t.cond ∧ RegsKeptBut [dr] s t ∧ t.pc = s.pc ∧ t.run = s.run ∧ t.out = s.out ∧
  t.console = r.2.console ∧ MemKept r.2 t

/-- A store of `v` at address `a`, from `s` to `t`: that cell holds `v`, every other cell is as before, and nothing
else changes. -/
def Stores (a v : Word) (s t : State) : Prop :=
  peek a t = v ∧ MemKeptBut a s t ∧ RegsKeptBut [] s t ∧ t.cond = s.cond ∧ t.pc = s.pc ∧ IoKept s t

/-- A transfer of control to `target`, from `s` to `t`: only `pc` changes, and R7 where the instruction links. -/
def GoesTo (target : Word) (written : List Reg) (s t : State) : Prop :=
  t.pc = target ∧ RegsKeptBut written s t ∧ t.cond = s.cond ∧ MemKept s t ∧ IoKept s t

/-! ### The invariant -/

/-- The legal values of `cond` (R30). -/
def condLegal (c : BitVec 3) : Bool :=
  c == 0#3 || c == Config.flagP || c == Config.flagZ || c == Config.flagN

/-- Exactly one flag is set (R30, R34). -/
def oneFlag (c : BitVec 3) : Bool := c == Config.flagP || c == Config.flagZ || c == Config.flagN

/-- What holds between any two steps: the storage is in its canonical form, and `cond` has a legal value (R30). -/
def State.Inv (s : State) : Prop := s.mem.wf ∧ condLegal s.cond = true

/-! ### What the whole-machine rules say of an instruction -/

/-- The flag-setting instructions, by their destination register (R32). -/
def flagDest : Instr → Option Reg
  | .addReg dr _ _ | .addImm dr _ _ | .andReg dr _ _ | .andImm dr _ _ | .not dr _ | .lea dr _
  | .ld dr _ | .ldi dr _ | .ldr dr _ _ => some dr
  | .br _ _ | .st _ _ | .jsr _ | .jsrr _ | .str _ _ _ | .rti | .sti _ _ | .jmp _ | .res
  | .trapGetc | .trapOut | .trapPuts | .trapIn | .trapPutsp | .trapHalt | .trapOther _ => none

/-- The general registers an instruction writes (R23). -/
def regsWritten : Instr → List Reg
  | .addReg dr _ _ | .addImm dr _ _ | .andReg dr _ _ | .andImm dr _ _ | .not dr _ | .lea dr _
  | .ld dr _ | .ldi dr _ | .ldr dr _ _ => [dr]
  | .jsr _ | .jsrr _ | .trapOut | .trapPuts | .trapPutsp | .trapHalt | .trapOther _ => [.r7]
  | .trapGetc | .trapIn => [.r7, .r0]
  | .br _ _ | .st _ _ | .str _ _ _ | .rti | .sti _ _ | .jmp _ | .res => []

/-- The address an instruction stores to, from the state after the fetch (R183 to R185). -/
def storeAddr : Instr → State → Option Word
  | .st _ off, s => some (pcRel off s)
  | .sti _ off, s => some (indirect off s).1
  | .str _ base off, s => some (baseOff base off s)
  | .br _ _, _ | .addReg _ _ _, _ | .addImm _ _ _, _ | .ld _ _, _ | .jsr _, _ | .jsrr _, _ | .andReg _ _ _, _
  | .andImm _ _ _, _ | .ldr _ _ _, _ | .rti, _ | .not _ _, _ | .ldi _ _, _ | .jmp _, _ | .res, _ | .lea _ _, _
  | .trapGetc, _ | .trapOut, _ | .trapPuts, _ | .trapIn, _ | .trapPutsp, _ | .trapHalt, _ | .trapOther _, _ => none

/-- `pc` after the step, from the state after the fetch: the table of R27, `p` being that state's `pc`. -/
def nextPc : Instr → State → Word
  | .br nzp off, s => if nzp &&& s.cond = 0#3 then s.pc else s.pc + off.signExtend 16
  | .jmp base, s => readReg base s
  | .jsr off, s => s.pc + off.signExtend 16
  | .jsrr base, s => if base = .r7 then s.pc else readReg base s
  | .addReg _ _ _, s | .addImm _ _ _, s | .ld _ _, s | .st _ _, s | .andReg _ _ _, s | .andImm _ _ _, s
  | .ldr _ _ _, s | .str _ _ _, s | .rti, s | .not _ _, s | .ldi _ _, s | .sti _ _, s | .res, s | .lea _ _, s
  | .trapGetc, s | .trapOut, s | .trapPuts, s | .trapIn, s | .trapPutsp, s | .trapHalt, s | .trapOther _, s => s.pc

/-- The fatal words (R100): opcode 8, opcode 13, and TRAP with a vector outside 0x20 to 0x25; with the reason each
raises (R232). -/
def fatalReasonOf (w : Word) : Option FatalReason :=
  if w.toNat / 4096 = 8 then some (.invalidOpcode 0x8#4)
  else if w.toNat / 4096 = 13 then some (.invalidOpcode 0xD#4)
  else if w.toNat / 4096 = 15 ∧ (w.toNat % 256 < 0x20 ∨ 0x25 < w.toNat % 256) then
    some (.invalidTrapVector (BitVec.ofNat 8 (w.toNat % 256)))
  else none

/-! ### The strings of PUTS and PUTSP, as the spec's unbounded loops -/

/-- The address of word `k` of the string at R0: `x[0] + k` modulo 65536 (R204). -/
def stringAddr (s : State) (k : Nat) : Word := readReg .r0 s + BitVec.ofNat 16 k

/-- The loop of PUTS (R204) from address `a` in state `s` ends in state `t`. -/
inductive PutsRun : Word → State → State → Prop where
  | stop {a : Word} {s : State} (h : (memRead a s).1 = 0x0000#16) : PutsRun a s (memRead a s).2
  | more {a : Word} {s t : State} (h : (memRead a s).1 ≠ 0x0000#16)
      (rest : PutsRun (a + 1) (writeChar (lo8 (memRead a s).1) (memRead a s).2) t) : PutsRun a s t

/-- The loop of PUTSP (R207) from address `a` in state `s` ends in state `t`. -/
inductive PutspRun : Word → State → State → Prop where
  | stop {a : Word} {s : State} (h : hi8 (memRead a s).1 = 0x00#8) :
      PutspRun a s (writeChar (lo8 (memRead a s).1) (memRead a s).2)
  | more {a : Word} {s t : State} (h : hi8 (memRead a s).1 ≠ 0x00#8)
      (rest : PutspRun (a + 1)
        (writeChar (hi8 (memRead a s).1) (writeChar (lo8 (memRead a s).1) (memRead a s).2)) t) : PutspRun a s t

/-! ### Runs -/

/-- `t` is reached from `s` by steps that each answer a next state. -/
inductive Reaches : State → State → Prop where
  | refl (s : State) : Reaches s s
  | tail {s t u : State} (h : Reaches s t) (h' : step t = .next u) : Reaches s u

end Sys2Proof.Machine
end

