-- ==== Sys2Proof/Certificates/Slice0/Obligations.lean ====
section
/-! DEFINITION. The statements for the provers, file by file of spec/. In every statement about `exec i s` the state `s`
is the one after the fetch, so `s.pc` is the post-fetch PC of 10_state.md R26. -/

open Sys2Proof Sys2Proof.Machine

/-! ## 00_scope.md and 30_encoding.md: sign extension, decoding, encoding -/

/-- R9: `sext_N(v)` is the Word `v` when bit N-1 is 0, and `v OR (0xFFFF << N)` when it is 1. -/
def Obligations.SignExtensionFollowsTheFieldsTopBit : Prop :=
  ∀ (n : Nat) (v : BitVec n), 1 ≤ n → n ≤ 16 →
    (v.getLsbD (n - 1) = false → sext v = BitVec.ofNat 16 v.toNat) ∧
    (v.getLsbD (n - 1) = true → sext v = BitVec.ofNat 16 v.toNat ||| (0xFFFF#16 <<< n))

/-- Decoding the word of any well-formed instruction gives that instruction back, for every operand value
(30_encoding.md, formats R86 to R96). -/
def Obligations.DecodeInvertsEncode : Prop :=
  ∀ i : Instr, i.wf = true → decodeWord (encode i) = i

/-- R82: decoding is total: every Word, whatever follows it, decodes to one well-formed instruction of the table, and
the decoder reads that one Word only. -/
def Obligations.EveryWordDecodesToOneInstruction : Prop :=
  ∀ w : Word, ∃ i : Instr, i.wf = true ∧ ∀ rest : List Word, decode (w :: rest) = .ok (i, rest)

/-- Two Words decode alike exactly when they agree on the bits that the format does not ignore (R98, the spec's
decision D6). -/
def Obligations.OnlyIgnoredBitsDoNotMatter : Prop :=
  ∀ w w' : Word, decodeWord w' = decodeWord w ↔
    w' &&& (decodeWord w).usedBits = w &&& (decodeWord w).usedBits

/-- 30_encoding.md section 8: the first row of the encoding summary that a Word matches is the row of the instruction
it decodes to. -/
def Obligations.DecodingFollowsTheEncodingSummary : Prop :=
  ∀ w : Word, firstRow w = some (decodeWord w).rowIndex

/-- Words of the rules' own examples (R140, R143, R144, R145, R161, R164, R165, R166, R180, R181, R182, R183, R184,
R185, R200, R210, R127) decode to the instructions they stand for. -/
def Obligations.ExampleWordsDecodeAsTheRulesSay : Prop :=
  decodeWord 0x1642#16 = .addReg .r3 .r1 .r2 ∧ decodeWord 0x103D#16 = .addImm .r0 .r0 0b11101#5 ∧
  decodeWord 0x5260#16 = .andImm .r1 .r1 0#5 ∧ decodeWord 0x997F#16 = .not .r4 .r5 ∧
  decodeWord 0xE005#16 = .lea .r0 5#9 ∧ decodeWord 0x05FE#16 = .br 0b010#3 0x1FE#9 ∧
  decodeWord 0xC1C0#16 = .jmp .r7 ∧ decodeWord 0x480A#16 = .jsr 10#11 ∧ decodeWord 0x40C0#16 = .jsrr .r3 ∧
  decodeWord 0x2202#16 = .ld .r1 2#9 ∧ decodeWord 0xA401#16 = .ldi .r2 1#9 ∧
  decodeWord 0x66BF#16 = .ldr .r3 .r2 0x3F#6 ∧ decodeWord 0x3203#16 = .st .r1 3#9 ∧
  decodeWord 0xB3FE#16 = .sti .r1 0x1FE#9 ∧ decodeWord 0x795F#16 = .str .r4 .r5 31#6 ∧
  decodeWord 0xF021#16 = .trapOut ∧ decodeWord 0xF026#16 = .trapOther 0x26#8 ∧
  decodeWord 0x8000#16 = .rti ∧ decodeWord 0xDFFF#16 = .res

/-- The spec's decision D13 (R232, R100): the fatal words are exactly opcode 8, opcode 13 and TRAP with a vector
outside 0x20 to 0x25. Such a word ends the step in Fatal with its reason and recorded value, `pc` left at the word's
address plus 1; no other word makes a running machine fatal. -/
def Obligations.FatalWordsAreExactlyTheListedOnes : Prop :=
  ∀ (w : Word) (s : State), s.run = .running →
    (∀ r, fatalReasonOf w = some r →
      ∃ t, exec (decodeWord w) s = .next t ∧ t.run = .fatal r ∧ t.pc = s.pc) ∧
    (fatalReasonOf w = none → ∀ t, exec (decodeWord w) s = .next t → ∀ r, t.run ≠ .fatal r)

/-! ## 10_state.md: registers, pc, flags, run state, output -/

/-- R31: `setcc(v)` sets exactly the flag of the signed interpretation of `v`, and nothing but `cond`. -/
def Obligations.SetccWritesTheFlagOfTheValue : Prop :=
  ∀ (v : Word) (s : State), FlagsSay v (setcc v s).cond ∧ setcc v s = { s with cond := (setcc v s).cond }

/-- The spec's decision D8 (R32): `cond` is written only by the seven flag-setting instructions, and there with the
flag of the value of DR. -/
def Obligations.CondIsWrittenOnlyByFlagSetters : Prop :=
  ∀ (i : Instr) (s t : State), exec i s = .next t →
    (flagDest i = none → t.cond = s.cond) ∧ (∀ dr, flagDest i = some dr → FlagsSay (readReg dr t) t.cond)

/-- The spec's resolution C1 (R30, R34): once one flag is set it stays so at every step, and a flag-setting
instruction sets one whatever `cond` was. -/
def Obligations.OneFlagHoldsFromTheFirstFlagSetterOn : Prop :=
  ∀ s t : State, step s = .next t →
    (oneFlag s.cond = true ∨ (flagDest (decodeWord (fetch s).1)).isSome = true) → oneFlag t.cond = true

/-- General registers are written only by the instructions R23 lists, and only the registers it lists (the spec
derives R23 from its instruction rules). -/
def Obligations.RegistersAreWrittenOnlyAsListed : Prop :=
  ∀ (i : Instr) (s t : State), exec i s = .next t → RegsKeptBut (regsWritten i) s t

/-- `pc` after the step, for every instruction, as the table of R27 has it (the spec derives R27 from its instruction
rules). That JSRR R7 goes on at the post-fetch PC rests on the spec's own decision D14 (log 8, PRESUMED, unsafe). -/
def Obligations.PcAdvancesAsTheTableSays : Prop :=
  ∀ (i : Instr) (s t : State), exec i s = .next t → t.pc = nextPc i s

/-- The spec's decision D13 (R35, R120): a terminal run state is reached only by HALT or a fatal decode error; every
other instruction leaves the run state alone. -/
def Obligations.RunEndsOnlyByHaltOrFatalDecode : Prop :=
  ∀ (i : Instr) (s t : State), exec i s = .next t →
    (i = .trapHalt → t.run = .halted) ∧
    (i = .rti → t.run = .fatal (.invalidOpcode 8#4)) ∧ (i = .res → t.run = .fatal (.invalidOpcode 13#4)) ∧
    (∀ v, i = .trapOther v → t.run = .fatal (.invalidTrapVector v)) ∧
    (i ≠ .trapHalt → i ≠ .rti → i ≠ .res → (∀ v, i ≠ .trapOther v) → t.run = s.run)

/-- The spec's decision D15 (R38): the block only appends to `out`, and only OUT, PUTS, IN and PUTSP append. -/
def Obligations.OutputOnlyGrowsAndOnlyByTheServices : Prop :=
  ∀ (i : Instr) (s t : State), exec i s = .next t →
    (∃ bs, t.out = s.out ++ bs) ∧
    (i ≠ .trapOut → i ≠ .trapPuts → i ≠ .trapIn → i ≠ .trapPutsp → t.out = s.out)

/-- The spec's decision D15 (R41): when `key_available()` answers true, the next `read_char()` returns at once. -/
def Obligations.AfterKeyAvailableReadCharReturns : Prop :=
  ∀ c : Console, c.keyAvailable.1 = true → ∃ b c', c.keyAvailable.2.readChar = some (b, c')

/-! ## 20_memory.md: reads, writes, image loading -/

/-- R55: `MemWrite` sets `M[a]` at every address and has no other effect. So, with R56, at every address but KBSR a
read returns what was last stored and changes nothing; DSR, DDR and MCR (R58) are such addresses. -/
def Obligations.MemoryIsPlainStorageAwayFromKbsrReads : Prop :=
  ∀ (a v : Word) (s : State),
    Stores a v s (memWrite a v s) ∧
    (a ≠ 0xFE00#16 → memRead a s = (peek a s, s) ∧ memRead a (memWrite a v s) = (v, memWrite a v s))

/-- The spec's decisions D4, D5, D15 (R54): a read of KBSR refreshes it first: 0x0000 when no key is available, KBDR
keeping its value; 0x8000 when one is, with the pending character, which is consumed, zero-extended in KBDR. Nothing
else changes. -/
def Obligations.KbsrReadRefreshesTheKeyboardCells : Prop :=
  ∀ s : State,
    (s.console.keyAvailable.1 = false →
      (memRead 0xFE00#16 s).1 = 0x0000#16 ∧ peek 0xFE00#16 (memRead 0xFE00#16 s).2 = 0x0000#16 ∧
      MemKeptBut 0xFE00#16 s (memRead 0xFE00#16 s).2 ∧
      (memRead 0xFE00#16 s).2.console = s.console.keyAvailable.2) ∧
    (s.console.keyAvailable.1 = true →
      ∃ b c, s.console.keyAvailable.2.readChar = some (b, c) ∧
        (memRead 0xFE00#16 s).1 = 0x8000#16 ∧ peek 0xFE00#16 (memRead 0xFE00#16 s).2 = 0x8000#16 ∧
        (peek 0xFE02#16 (memRead 0xFE00#16 s).2).toNat = b.toNat ∧
        (∀ a, a ≠ 0xFE00#16 → a ≠ 0xFE02#16 → peek a (memRead 0xFE00#16 s).2 = peek a s) ∧
        (memRead 0xFE00#16 s).2.console = c) ∧
    (memRead 0xFE00#16 s).2.regs = s.regs ∧ (memRead 0xFE00#16 s).2.pc = s.pc ∧
    (memRead 0xFE00#16 s).2.cond = s.cond ∧ (memRead 0xFE00#16 s).2.run = s.run ∧
    (memRead 0xFE00#16 s).2.out = s.out

/-- As the spec derives in R59: a value stored in KBSR is never read back, since the read refreshes the cell first; a
value stored in KBDR is read back, and outlasts a KBSR refresh that finds no key. -/
def Obligations.StoredKeyboardValuesLastAsSaid : Prop :=
  ∀ (v : Word) (s : State),
    (memRead 0xFE00#16 (memWrite 0xFE00#16 v s)).1 = (memRead 0xFE00#16 s).1 ∧
    (memRead 0xFE02#16 (memWrite 0xFE02#16 v s)).1 = v ∧
    (s.console.keyAvailable.1 = false →
      peek 0xFE02#16 (memRead 0xFE00#16 (memWrite 0xFE02#16 v s)).2 = v)

/-- Drawn from R12, R55 and R56: a step changes no cell but the one a store instruction stores to, and KBSR and KBDR.
-/
def Obligations.MemoryChangesOnlyByStoresAndTheRefresh : Prop :=
  ∀ (i : Instr) (s t : State) (a : Word), exec i s = .next t → storeAddr i s ≠ some a →
    a ≠ 0xFE00#16 → a ≠ 0xFE02#16 → peek a t = peek a s

/-- As the spec derives in R71: a store is seen by the very next fetch of its address (the KBSR cell, which the fetch
refreshes, apart). -/
def Obligations.StoreIsSeenByTheNextFetch : Prop :=
  ∀ (sr base : Reg) (off : BitVec 9) (off6 : BitVec 6) (s t : State),
    (exec (.st sr off) s = .next t → pcRel off s ≠ 0xFE00#16 →
      (fetch (setPc (pcRel off s) t)).1 = readReg sr s) ∧
    (exec (.sti sr off) s = .next t → (indirect off s).1 ≠ 0xFE00#16 →
      (fetch (setPc (indirect off s).1 t)).1 = readReg sr s) ∧
    (exec (.str sr base off6) s = .next t → baseOff base off6 s ≠ 0xFE00#16 →
      (fetch (setPc (baseOff base off6 s) t)).1 = readReg sr s)

/-- R60: `load_image` puts word `k` at `origin + k`, stops without wrapping at the end of storage, and leaves every
other cell as it was. -/
def Obligations.LoadImageCopiesWordsWithoutWrapping : Prop :=
  ∀ (m : Memory) (origin : Nat) (words : List Word) (a : Nat), a ≤ 0xFFFF →
    (a < origin → Memory.read (Memory.loadImage m origin words) a = Memory.read m a) ∧
    (∀ k w, words[k]? = some w → a = origin + k → Memory.read (Memory.loadImage m origin words) a = w) ∧
    (origin + words.length ≤ a → Memory.read (Memory.loadImage m origin words) a = Memory.read m a)

/-- The canonical form of the storage says all there is to say: two storages in it that read alike are the same list
(the model's own claim, log 1, over 10_state.md R37). -/
def Obligations.StoragesThatReadAlikeAreEqual : Prop :=
  ∀ m m' : Memory, m.wf → m'.wf → (∀ a, a ≤ 0xFFFF → Memory.read m a = Memory.read m' a) → m = m'

/-! ## 40_fetch_decode.md: the step -/

/-- R121, R125: a running machine's step reads the Word at `pc` by `MemRead`, increments `pc` modulo 65536, decodes,
and runs that instruction on the state after the fetch. -/
def Obligations.StepRunsTheInstructionAtPc : Prop :=
  ∀ (s : State) (i : Instr), s.run = .running → decodeWord (memRead s.pc s).1 = i →
    step s = exec i (setPc (s.pc + 1) (memRead s.pc s).2)

/-- R120: when `run` is Halted or Fatal no step is enabled. The model says so by the fault `stopped` (log 6). -/
def Obligations.StoppedMachineTakesNoStep : Prop :=
  ∀ s : State, s.run ≠ .running → step s = .fault .stopped

/-- As the spec derives in R128 with its decision D4: a fetch at KBSR runs the refresh and executes the refreshed
value: RTI, fatal, when a key is available, and a BR that is never taken when none is. -/
def Obligations.FetchAtKbsrExecutesTheRefreshedValue : Prop :=
  ∀ s : State, s.run = .running → s.pc = 0xFE00#16 →
    (s.console.keyAvailable.1 = true → ∃ t, step s = .next t ∧ t.run = .fatal (.invalidOpcode 8#4) ∧
      t.pc = 0xFE01#16 ∧ t.regs = s.regs ∧ t.cond = s.cond ∧ t.out = s.out ∧ peek 0xFE00#16 t = 0x8000#16) ∧
    (s.console.keyAvailable.1 = false → ∃ t, step s = .next t ∧ t.run = .running ∧
      t.pc = 0xFE01#16 ∧ t.regs = s.regs ∧ t.cond = s.cond ∧ t.out = s.out ∧ peek 0xFE00#16 t = 0x0000#16 ∧
      MemKeptBut 0xFE00#16 s t)

/-- The spec's decisions D2, D13 (R127): RTI and RES, every word with opcode 8 or 13, end the step in Fatal; `pc` is
the post-fetch PC and nothing else changes but what the fetch did. -/
def Obligations.RtiAndResAreFatalWhateverTheirLowBits : Prop :=
  (∀ s : State, ∃ t, exec .rti s = .next t ∧ t = { s with run := .fatal (.invalidOpcode 8#4) }) ∧
  (∀ s : State, ∃ t, exec .res s = .next t ∧ t = { s with run := .fatal (.invalidOpcode 13#4) }) ∧
  (∀ w : Word, w.toNat / 4096 = 8 → decodeWord w = .rti) ∧ (∀ w : Word, w.toNat / 4096 = 13 → decodeWord w = .res)

/-- The host's way in: the step from `s.withFetchWord 16 w` runs exactly the instruction that the decoder gives for
the bits `w`, with `pc` moved past it (the model's own claim, log 15). -/
def Obligations.PlacedWordIsTheNextInstruction : Prop :=
  ∀ (s : State) (w : Nat), w < 65536 → ∃ i, decodeTableWord 16 w = some i ∧
    step (s.withFetchWord 16 w) =
      exec i (setPc ((s.withFetchWord 16 w).pc + 1) (s.withFetchWord 16 w))

/-! ## 41_alu.md

From here on the statement of an instruction's rule also states the rule's encoding line, ignored bits included. -/

/-- R140, R141: ADD, both forms: DR gets the sum modulo 65536 of the sources as they were before the write, `cond` its
flag, and nothing else changes; the forms agree when SR2 holds the extended immediate. -/
def Obligations.AddWritesTheWrappingSum : Prop :=
  (∀ (dr sr1 sr2 : Reg) (s : State), ∃ t, exec (.addReg dr sr1 sr2) s = .next t ∧
    WritesResult dr (BitVec.ofNat 16 (((readReg sr1 s).toNat + (readReg sr2 s).toNat) % 65536)) s t) ∧
  (∀ (dr sr1 : Reg) (imm : BitVec 5) (s : State), ∃ t, exec (.addImm dr sr1 imm) s = .next t ∧
    WritesResult dr (BitVec.ofInt 16 (((readReg sr1 s).toNat : Int) + imm.toInt)) s t) ∧
  (∀ (dr sr1 sr2 : Reg) (imm : BitVec 5) (s : State), (readReg sr2 s).toInt = imm.toInt →
    exec (.addImm dr sr1 imm) s = exec (.addReg dr sr1 sr2) s) ∧
  (∀ (dr sr1 sr2 : Reg) (x : BitVec 2), decodeWord
    (0b0001#4 ++ dr.toBits ++ sr1.toBits ++ 0#1 ++ x ++ sr2.toBits) = .addReg dr sr1 sr2) ∧
  (∀ (dr sr1 : Reg) (imm : BitVec 5), decodeWord
    (0b0001#4 ++ dr.toBits ++ sr1.toBits ++ 1#1 ++ imm) = .addImm dr sr1 imm)

/-- R142, R143: AND, both forms: bit `k` of DR is the conjunction of bit `k` of the sources, `cond` the flag of the
result, and nothing else changes; the forms agree when SR2 holds the extended immediate. -/
def Obligations.AndWritesTheBitwiseConjunction : Prop :=
  (∀ (dr sr1 sr2 : Reg) (s : State), ∃ t v, exec (.andReg dr sr1 sr2) s = .next t ∧
    (∀ k, v.getLsbD k = ((readReg sr1 s).getLsbD k && (readReg sr2 s).getLsbD k)) ∧ WritesResult dr v s t) ∧
  (∀ (dr sr1 : Reg) (imm : BitVec 5) (s : State), ∃ t v, exec (.andImm dr sr1 imm) s = .next t ∧
    (∀ k, v.getLsbD k = ((readReg sr1 s).getLsbD k && (imm.signExtend 16).getLsbD k)) ∧ WritesResult dr v s t) ∧
  (∀ (dr sr1 sr2 : Reg) (imm : BitVec 5) (s : State), (readReg sr2 s).toInt = imm.toInt →
    exec (.andImm dr sr1 imm) s = exec (.andReg dr sr1 sr2) s) ∧
  (∀ (dr sr1 sr2 : Reg) (x : BitVec 2), decodeWord
    (0b0101#4 ++ dr.toBits ++ sr1.toBits ++ 0#1 ++ x ++ sr2.toBits) = .andReg dr sr1 sr2) ∧
  (∀ (dr sr1 : Reg) (imm : BitVec 5), decodeWord
    (0b0101#4 ++ dr.toBits ++ sr1.toBits ++ 1#1 ++ imm) = .andImm dr sr1 imm)

/-- R144: NOT: every bit of DR is the complement of that bit of SR as it was, `cond` the flag of the result, and
nothing else changes. -/
def Obligations.NotWritesTheComplement : Prop :=
  (∀ (dr sr : Reg) (s : State), ∃ t v, exec (.not dr sr) s = .next t ∧
    (∀ k, k < 16 → v.getLsbD k = !(readReg sr s).getLsbD k) ∧ WritesResult dr v s t) ∧
  (∀ (dr sr : Reg) (x : BitVec 6), decodeWord (0b1001#4 ++ dr.toBits ++ sr.toBits ++ x) = .not dr sr)

/-- R145: LEA: DR gets the post-fetch PC plus the signed offset modulo 65536, `cond` its flag; no memory is read or
written and nothing else changes. -/
def Obligations.LeaWritesTheAddressAndItsFlag : Prop :=
  (∀ (dr : Reg) (off : BitVec 9) (s : State), ∃ t, exec (.lea dr off) s = .next t ∧
    WritesResult dr (BitVec.ofInt 16 ((s.pc.toNat : Int) + off.toInt)) s t) ∧
  (∀ (dr : Reg) (off : BitVec 9), decodeWord (0b1110#4 ++ dr.toBits ++ off) = .lea dr off)

/-! ## 42_control_flow.md -/

/-- R161: BR is taken exactly when its mask has a bit in common with `cond`, and then goes to the post-fetch PC plus
the signed offset; nothing but `pc` changes. -/
def Obligations.BrIsTakenExactlyOnACommonBit : Prop :=
  (∀ (nzp : BitVec 3) (off : BitVec 9) (s : State), ∃ t, exec (.br nzp off) s = .next t ∧
    ((∃ k, k < 3 ∧ nzp.getLsbD k = true ∧ s.cond.getLsbD k = true) →
      GoesTo (BitVec.ofInt 16 ((s.pc.toNat : Int) + off.toInt)) [] s t) ∧
    ((¬ ∃ k, k < 3 ∧ nzp.getLsbD k = true ∧ s.cond.getLsbD k = true) → GoesTo s.pc [] s t)) ∧
  (∀ (nzp : BitVec 3) (off : BitVec 9), decodeWord (0b0000#4 ++ nzp ++ off) = .br nzp off)

/-- R163, R164: JMP goes to the value of BaseR and changes nothing else; the word 0xC1C0 (RET) goes to the value of
R7. -/
def Obligations.JmpGoesToTheBaseRegister : Prop :=
  (∀ (base : Reg) (s : State), ∃ t, exec (.jmp base) s = .next t ∧ GoesTo (readReg base s) [] s t) ∧
  (∀ s : State, ∃ t, exec (decodeWord 0xC1C0#16) s = .next t ∧ GoesTo (readReg .r7 s) [] s t) ∧
  (∀ (base : Reg) (x : BitVec 3) (y : BitVec 6), decodeWord (0b1100#4 ++ x ++ base.toBits ++ y) = .jmp base)

/-- R165: JSR saves the post-fetch PC in R7 and goes to it plus the signed 11-bit offset; nothing else changes. -/
def Obligations.JsrLinksAndGoesToTheOffset : Prop :=
  (∀ (off : BitVec 11) (s : State), ∃ t, exec (.jsr off) s = .next t ∧ readReg .r7 t = s.pc ∧
    GoesTo (BitVec.ofInt 16 ((s.pc.toNat : Int) + off.toInt)) [.r7] s t) ∧
  (∀ off : BitVec 11, decodeWord (0b0100#4 ++ 1#1 ++ off) = .jsr off)

/-- JSRR saves the post-fetch PC in R7 and then reads BaseR: it goes to the value of BaseR, and JSRR R7 goes to the
post-fetch PC, which is the spec's own reading (D14, log 8). -/
def Obligations.JsrrLinksBeforeItReadsTheBase : Prop :=
  (∀ (base : Reg) (s : State), ∃ t, exec (.jsrr base) s = .next t ∧ readReg .r7 t = s.pc ∧
    (base ≠ .r7 → GoesTo (readReg base s) [.r7] s t) ∧ (base = .r7 → GoesTo s.pc [.r7] s t)) ∧
  (∀ (base : Reg) (x : BitVec 2) (y : BitVec 6), decodeWord (0b0100#4 ++ 0#1 ++ x ++ base.toBits ++ y) = .jsrr base)

/-- As the spec derives in R101 and R34: with an empty mask, or with `cond` still 0, BR is not taken and changes
nothing after the fetch; the word 0x0000 is such a BR. -/
def Obligations.BrWithoutMaskOrFlagDoesNothing : Prop :=
  (∀ (nzp : BitVec 3) (off : BitVec 9) (s : State), nzp = 0#3 ∨ s.cond = 0#3 → exec (.br nzp off) s = .next s) ∧
  (∃ off, decodeWord 0x0000#16 = .br 0#3 off)

/-! ## 43_memory_access.md -/

/-- R180: LD loads the Word that `MemRead` gives at the post-fetch PC plus the signed offset, and sets the flags from
it. -/
def Obligations.LdLoadsFromThePcRelativeAddress : Prop :=
  (∀ (dr : Reg) (off : BitVec 9) (s : State), ∃ t, exec (.ld dr off) s = .next t ∧
    Loads dr (memRead (BitVec.ofInt 16 ((s.pc.toNat : Int) + off.toInt)) s) s t) ∧
  (∀ (dr : Reg) (off : BitVec 9), decodeWord (0b0010#4 ++ dr.toBits ++ off) = .ld dr off)

/-- R181: LDI reads a pointer at the PC-relative address and then, in the state after that read, the Word it points
to. -/
def Obligations.LdiLoadsThroughThePointer : Prop :=
  (∀ (dr : Reg) (off : BitVec 9) (s : State), ∃ t, exec (.ldi dr off) s = .next t ∧
    ∀ p, p = memRead (BitVec.ofInt 16 ((s.pc.toNat : Int) + off.toInt)) s → Loads dr (memRead p.1 p.2) s t) ∧
  (∀ (dr : Reg) (off : BitVec 9), decodeWord (0b1010#4 ++ dr.toBits ++ off) = .ldi dr off)

/-- R182: LDR loads from the base register's value, as it was before the load, plus the signed 6-bit offset. -/
def Obligations.LdrLoadsFromBasePlusOffset : Prop :=
  (∀ (dr base : Reg) (off : BitVec 6) (s : State), ∃ t, exec (.ldr dr base off) s = .next t ∧
    Loads dr (memRead (BitVec.ofInt 16 (((readReg base s).toNat : Int) + off.toInt)) s) s t) ∧
  (∀ (dr base : Reg) (off : BitVec 6), decodeWord (0b0110#4 ++ dr.toBits ++ base.toBits ++ off) = .ldr dr base off)

/-- R183: ST stores SR at the post-fetch PC plus the signed offset; nothing else changes, the flags included. -/
def Obligations.StStoresAtThePcRelativeAddress : Prop :=
  (∀ (sr : Reg) (off : BitVec 9) (s : State), ∃ t, exec (.st sr off) s = .next t ∧
    pcRel off s = BitVec.ofInt 16 ((s.pc.toNat : Int) + off.toInt) ∧ Stores (pcRel off s) (readReg sr s) s t) ∧
  (∀ (sr : Reg) (off : BitVec 9), decodeWord (0b0011#4 ++ sr.toBits ++ off) = .st sr off)

/-- R184: STI reads a pointer by `MemRead` at the PC-relative address and stores SR at the address it gives, in the
state after that read; nothing else changes. -/
def Obligations.StiStoresThroughThePointer : Prop :=
  (∀ (sr : Reg) (off : BitVec 9) (s : State), ∃ t, exec (.sti sr off) s = .next t ∧
    indirect off s = memRead (BitVec.ofInt 16 ((s.pc.toNat : Int) + off.toInt)) s ∧
    Stores (indirect off s).1 (readReg sr s) (indirect off s).2 t ∧
    RegsKeptBut [] s t ∧ t.cond = s.cond ∧ t.pc = s.pc ∧ t.run = s.run ∧ t.out = s.out) ∧
  (∀ (sr : Reg) (off : BitVec 9), decodeWord (0b1011#4 ++ sr.toBits ++ off) = .sti sr off)

/-- R185: STR stores SR at the base register's value plus the signed 6-bit offset; nothing else changes. -/
def Obligations.StrStoresAtBasePlusOffset : Prop :=
  (∀ (sr base : Reg) (off : BitVec 6) (s : State), ∃ t, exec (.str sr base off) s = .next t ∧
    baseOff base off s = BitVec.ofInt 16 (((readReg base s).toNat : Int) + off.toInt) ∧
    Stores (baseOff base off s) (readReg sr s) s t) ∧
  (∀ (sr base : Reg) (off : BitVec 6), decodeWord (0b0111#4 ++ sr.toBits ++ base.toBits ++ off) = .str sr base off)

/-- Drawn from R180 to R182 with R56: a load whose reads are away from KBSR gives DR the stored Word and changes no
memory cell, no console state and no other register. -/
def Obligations.LoadsAwayFromKbsrReadTheStoredWord : Prop :=
  ∀ (dr base : Reg) (off : BitVec 9) (off6 : BitVec 6) (s : State),
    (pcRel off s ≠ 0xFE00#16 → ∃ t, exec (.ld dr off) s = .next t ∧ WritesResult dr (peek (pcRel off s) s) s t) ∧
    (pcRel off s ≠ 0xFE00#16 → peek (pcRel off s) s ≠ 0xFE00#16 → ∃ t, exec (.ldi dr off) s = .next t ∧
      WritesResult dr (peek (peek (pcRel off s) s) s) s t) ∧
    (baseOff base off6 s ≠ 0xFE00#16 → ∃ t, exec (.ldr dr base off6) s = .next t ∧
      WritesResult dr (peek (baseOff base off6 s) s) s t)

/-! ## 44_trap.md and 60_exceptions.md -/

/-- The spec's decision D8 (R200, R211): whenever a TRAP completes, R7 holds the post-fetch PC, `pc` is unchanged and
`cond` is unchanged. -/
def Obligations.EveryTrapLinksAndGoesOnAfterItself : Prop :=
  ∀ (i : Instr) (s t : State), exec i s = .next t →
    (i = .trapGetc ∨ i = .trapOut ∨ i = .trapPuts ∨ i = .trapIn ∨ i = .trapPutsp ∨ i = .trapHalt ∨
      ∃ v, i = .trapOther v) →
    readReg .r7 t = s.pc ∧ t.pc = s.pc ∧ t.cond = s.cond

/-- The spec's decisions D7, D8 (R202): GETC, when a character comes, puts it zero-extended into R0 and consumes it,
without echo; besides R0 only R7 changes. -/
def Obligations.GetcReceivesOneCharacter : Prop :=
  ∀ (s : State) (b : Byte) (c : Console), s.console.readChar = some (b, c) →
    ∃ t, exec .trapGetc s = .next t ∧ (readReg .r0 t).toNat = b.toNat ∧ readReg .r7 t = s.pc ∧
      RegsKeptBut [.r0, .r7] s t ∧ t.cond = s.cond ∧ t.pc = s.pc ∧ MemKept s t ∧ t.run = s.run ∧
      t.out = s.out ∧ t.console = c

/-- OUT (R203) appends the low byte of R0 and changes nothing else but R7, which gets the post-fetch PC (R200). That the
flags are kept is the spec's decision D8, and that bits [11:8] of the word are ignored its decision D6 (R95, R98; logs
11 and 18). -/
def Obligations.OutWritesTheLowByteOfR0 : Prop :=
  (∀ s : State, ∃ t, exec .trapOut s = .next t ∧
    t.out = s.out ++ [BitVec.ofNat 8 ((readReg .r0 s).toNat % 256)] ∧
    readReg .r7 t = s.pc ∧ RegsKeptBut [.r7] s t ∧ t.cond = s.cond ∧ t.pc = s.pc ∧ MemKept s t ∧
    t.run = s.run ∧ t.console = s.console) ∧
  (∀ x : BitVec 4, decodeWord (0b1111#4 ++ x ++ 0x21#8) = .trapOut)

/-- The spec's decision D9 (R204): PUTS on a string of `n` non-zero words and a zero word, none of them at KBSR,
appends the low byte of each of the `n` words, wrapping at the end of memory, and changes nothing else but R7. -/
def Obligations.PutsWritesTheLowBytesUpToTheZeroWord : Prop :=
  ∀ (s : State) (n : Nat), n < 65536 →
    (∀ k, k ≤ n → stringAddr s k ≠ 0xFE00#16) →
    (∀ k, k < n → peek (stringAddr s k) s ≠ 0x0000#16) → peek (stringAddr s n) s = 0x0000#16 →
    ∃ t, exec .trapPuts s = .next t ∧
      t.out = s.out ++ (List.range n).map (fun k => BitVec.ofNat 8 ((peek (stringAddr s k) s).toNat % 256)) ∧
      readReg .r7 t = s.pc ∧ RegsKeptBut [.r7] s t ∧ t.cond = s.cond ∧ t.pc = s.pc ∧ MemKept s t ∧
      t.run = s.run ∧ t.console = s.console

/-- With the spec's decisions D9, D16 (R204, R208; log 7): PUTS completes whenever a zero word stands anywhere but in the two keyboard cells, and whenever the
console's input ends (the second premise is about the model's own field `ended`, log 2). -/
def Obligations.PutsEndsWhereAStopWordCanBeMet : Prop :=
  ∀ s : State, (∃ a, a ≠ 0xFE00#16 ∧ a ≠ 0xFE02#16 ∧ peek a s = 0x0000#16) ∨ s.console.ended = true →
    ∃ t, exec .trapPuts s = .next t

/-- With the spec's decisions D9, D16 (R204, R208, R236; log 7): PUTS answers the next state `t` exactly when the spec's
unbounded loop, from the address in R0 and with the KBSR refreshes on its way, ends in `t`; and it answers the hang's
fault exactly when that loop ends in no state. -/
def Obligations.PutsRefinesTheUnboundedLoop : Prop :=
  ∀ s : State,
    (∀ t, exec .trapPuts s = .next t ↔ PutsRun (readReg .r0 s) (saveReturn s) t) ∧
    (exec .trapPuts s = .fault .stringNeverEnds ↔ ∀ t, ¬ PutsRun (readReg .r0 s) (saveReturn s) t)

/-- The spec's decisions D7, D8, D11 (R205): IN, when a character comes, appends the prompt and the character's echo,
and puts the character zero-extended into R0; besides R0 only R7 changes. The prompt is the free value
`Config.inPrompt`. -/
def Obligations.InPromptsEchoesAndReceives : Prop :=
  ∀ (s : State) (b : Byte) (c : Console), s.console.readChar = some (b, c) →
    ∃ t, exec .trapIn s = .next t ∧ t.out = s.out ++ Config.inPrompt ++ [b] ∧
      (readReg .r0 t).toNat = b.toNat ∧ readReg .r7 t = s.pc ∧ RegsKeptBut [.r0, .r7] s t ∧ t.cond = s.cond ∧
      t.pc = s.pc ∧ MemKept s t ∧ t.run = s.run ∧ t.console = c

/-- R42, R236: GETC and IN give no next state exactly when no byte is left and none ever comes. The model says so by
the fault `inputNeverArrives` (log 5). -/
def Obligations.InputServicesHangExactlyWithoutInput : Prop :=
  ∀ s : State,
    (s.console.charAnswers = [] ∧ s.console.ended = true →
      exec .trapGetc s = .fault .inputNeverArrives ∧ exec .trapIn s = .fault .inputNeverArrives) ∧
    (¬ (s.console.charAnswers = [] ∧ s.console.ended = true) →
      (∃ t, exec .trapGetc s = .next t) ∧ (∃ t, exec .trapIn s = .next t))

/-- As the spec derives in R206: OUT, PUTS, PUTSP and HALT leave R0 to R6 unchanged; PUTS and PUTSP write no memory
cell but KBSR and KBDR, and OUT and HALT none. -/
def Obligations.OutputServicesKeepRegistersAndMemory : Prop :=
  ∀ (i : Instr) (s t : State), exec i s = .next t →
    (i = .trapOut ∨ i = .trapPuts ∨ i = .trapPutsp ∨ i = .trapHalt) →
    RegsKeptBut [.r7] s t ∧ (∀ a, a ≠ 0xFE00#16 → a ≠ 0xFE02#16 → peek a t = peek a s) ∧
    (i = .trapOut ∨ i = .trapHalt → MemKept s t)

/-- The spec's decisions D9, D10 (R207): PUTSP, in the default mode `LowThenTestHigh` (log 10), on `n` words with a
non-zero high byte and one with a zero high byte, none of them at KBSR, appends low and high byte of each of the `n`
words and the low byte of the last, and changes nothing else but R7. -/
def Obligations.PutspWritesBothBytesUpToAZeroHighByte : Prop :=
  ∀ (s : State) (n : Nat), n < 65536 →
    (∀ k, k ≤ n → stringAddr s k ≠ 0xFE00#16) →
    (∀ k, k < n → 256 ≤ (peek (stringAddr s k) s).toNat) → (peek (stringAddr s n) s).toNat < 256 →
    ∃ t, exec .trapPutsp s = .next t ∧
      t.out = s.out ++
        (List.range n).flatMap (fun k => [BitVec.ofNat 8 ((peek (stringAddr s k) s).toNat % 256),
          BitVec.ofNat 8 ((peek (stringAddr s k) s).toNat / 256)]) ++
        [BitVec.ofNat 8 (peek (stringAddr s n) s).toNat] ∧
      readReg .r7 t = s.pc ∧ RegsKeptBut [.r7] s t ∧ t.cond = s.cond ∧ t.pc = s.pc ∧ MemKept s t ∧
      t.run = s.run ∧ t.console = s.console

/-- In the default mode `LowThenTestHigh` (log 10) PUTSP completes in every state, and ends exactly as the spec's
unbounded loop ends from the address in R0, KBSR refreshes included. It ends because its string passes the keyboard
cells within one pass of memory, and there either KBSR reads 0x0000 or KBDR holds a zero-extended byte, so a word with
a zero high byte is met (decisions D5, D9, D10 of the spec). -/
def Obligations.PutspAlwaysEndsAsTheUnboundedLoop : Prop :=
  ∀ s : State, ∃ t, exec .trapPutsp s = .next t ∧ PutspRun (readReg .r0 s) (saveReturn s) t

/-- The spec's decision D12 (R209): HALT makes the run state Halted, with R7 and `pc` at the post-fetch PC, and
changes nothing else; the machine then takes no step. -/
def Obligations.HaltEndsTheRun : Prop :=
  ∀ s : State, ∃ t, exec .trapHalt s = .next t ∧ t.run = .halted ∧ readReg .r7 t = s.pc ∧ t.pc = s.pc ∧
    RegsKeptBut [.r7] s t ∧ t.cond = s.cond ∧ t.out = s.out ∧ MemKept s t ∧ t.console = s.console ∧
    ∀ u, step t ≠ .next u

/-- The spec's decision D13 (R210): TRAP with a vector outside the six writes R7 and then ends the step in
Fatal(InvalidTrapVector(v)); nothing else changes. -/
def Obligations.InvalidTrapVectorIsFatalAfterTheLink : Prop :=
  ∀ (v : BitVec 8) (s : State), ∃ t, exec (.trapOther v) s = .next t ∧ t.run = .fatal (.invalidTrapVector v) ∧
    readReg .r7 t = s.pc ∧ t.pc = s.pc ∧ RegsKeptBut [.r7] s t ∧ t.cond = s.cond ∧ t.out = s.out ∧
    MemKept s t ∧ t.console = s.console

/-! ## 70_reset_and_hazards.md and the invariant -/

/-- After the reset sequence of R250 with an image, every register and `cond` are 0, `pc` is 0x3000 whatever the origin,
the run state is Running, `out` is empty, and every cell holds its image word or 0x0000. That `cond` is 0 rests on the
spec's resolution C1 and decision D18 (log 12). The last clause, no image words give `State.reset`, is the model's own
(log 15, with the console's reset fields of log 3). -/
def Obligations.ResetSequenceLeavesTheStatedState : Prop :=
  ∀ (origin : Word) (words : List Word),
    (∀ r, readReg r (State.boot origin words) = 0x0000#16) ∧ (State.boot origin words).cond = 0#3 ∧
    (State.boot origin words).pc = 0x3000#16 ∧ (State.boot origin words).run = .running ∧
    (State.boot origin words).out = [] ∧
    (∀ a : Word, (∀ k w, words[k]? = some w → a.toNat = origin.toNat + k →
        peek a (State.boot origin words) = w) ∧
      (a.toNat < origin.toNat ∨ origin.toNat + words.length ≤ a.toNat →
        peek a (State.boot origin words) = 0x0000#16)) ∧
    State.boot origin [] = State.reset

/-- The invariant holds after reset, with any image. -/
def Obligations.InvariantHoldsAfterReset : Prop :=
  State.reset.Inv ∧ ∀ (origin : Word) (words : List Word), (State.boot origin words).Inv

/-- Every step keeps the invariant, from every state that has it: the storage stays in its canonical form, inside the
65536 Words of R37, and `cond` keeps a legal value of R30. -/
def Obligations.EveryStepKeepsTheInvariant : Prop :=
  ∀ s t : State, s.Inv → step s = .next t → t.Inv
end

