-- ==== Sys2Proof/Laws/Console.lean ====
section
/-! SUPPORT. What one call of the console can do. -/

namespace Sys2Proof.Machine

/-- When `read_char()` returns, the byte is the next scripted one, or a free one past the script. -/
theorem Console.readChar_cases {c c' : Console} {b : Byte} (h : c.readChar = some (b, c')) :
    (∃ rest, c.charAnswers = b :: rest ∧ c' = { c with charAnswers := rest }) ∨
    (c.charAnswers = [] ∧ c.ended = false ∧ b = c.freeByte ∧ c' = c.afterFreeByte) := by
  unfold Console.readChar at h
  split at h
  · next b' rest heq =>
    obtain ⟨rfl, rfl⟩ := Prod.mk.inj (Option.some.inj h)
    exact .inl ⟨rest, heq, rfl⟩
  · next heq =>
    split at h
    · cases h
    · next he =>
      obtain ⟨rfl, rfl⟩ := Prod.mk.inj (Option.some.inj h)
      exact .inr ⟨heq, by simpa using he, rfl, rfl⟩

/-- `read_char()` never returns exactly when no byte is left and none ever comes. -/
theorem Console.readChar_eq_none {c : Console} : c.readChar = none ↔ c.charAnswers = [] ∧ c.ended = true := by
  unfold Console.readChar
  split
  · next heq => simp [heq]
  · next heq => cases he : c.ended <;> simp [heq]

/-- A draw of the key state leaves the bytes to come as they are. -/
@[simp] theorem Console.drawKey_charAnswers (c : Console) : c.drawKey.2.charAnswers = c.charAnswers := by
  unfold Console.drawKey; split <;> rfl

@[simp] theorem Console.drawKey_ended (c : Console) : c.drawKey.2.ended = c.ended := by
  unfold Console.drawKey; split <;> rfl

/-- Both draws of one `key_available()` call: the answer and the console after it. -/
theorem Console.drawKey_cases (c : Console) :
    (∃ k rest, c.keyAnswers = k :: rest ∧ c.drawKey = (k, { c with keyAnswers := rest })) ∨
    (c.keyAnswers = [] ∧ c.drawKey = (!c.notReadyNext, c.afterFreeKey)) := by
  unfold Console.drawKey
  split
  · next k rest heq => exact .inl ⟨k, rest, heq, rfl⟩
  · next heq => exact .inr ⟨heq, rfl⟩

/-- The bound of a string's words counts what the console has scripted (log 7). -/
theorem stringBound_pos (s : State) : 131072 ≤ stringBound s := by
  unfold stringBound; omega

end Sys2Proof.Machine
end

