-- ==== Sys2Proof/Laws/Decode.lean ====
section
/-! SUPPORT. The laws of the register and opcode maps, both ways. -/

namespace Sys2Proof

@[simp] theorem Reg.ofBits_toBits (r : Reg) : Reg.ofBits r.toBits = r := by cases r <;> rfl

@[simp] theorem Reg.toBits_ofBits (v : BitVec 3) : (Reg.ofBits v).toBits = v := by revert v; decide

@[simp] theorem Opcode.ofBits_toBits (o : Opcode) : Opcode.ofBits o.toBits = o := by cases o <;> rfl

@[simp] theorem Opcode.toBits_ofBits (v : BitVec 4) : (Opcode.ofBits v).toBits = v := by revert v; decide

/-- What `decodeTrap` answers: a service for its own vector, `trapOther` for a vector that names none. -/
theorem decodeTrap_cases (v : BitVec 8) :
    (isServiceVector v = true ∧ decodeTrap v ≠ .trapOther v) ∨
    (isServiceVector v = false ∧ decodeTrap v = .trapOther v) := by
  revert v; decide +kernel

/-! ### What a mask of the encoding summary keeps of a word -/

/-- The mask 0xF000 keeps the opcode. -/
theorem masked_op (w : Word) : w &&& 0xF000#16 = (fieldOp w).setWidth 16 <<< 12 := by
  unfold fieldOp
  ext i hi
  simp only [BitVec.getElem_and, BitVec.getElem_shiftLeft, BitVec.getElem_setWidth, BitVec.getLsbD_extractLsb']
  interval_cases i <;> simp

/-- The mask 0xF020 keeps the opcode and the mode bit of ADD and AND. -/
theorem masked_immFlag (w : Word) :
    w &&& 0xF020#16 = (fieldOp w).setWidth 16 <<< 12 ||| (BitVec.ofBool (fieldImmFlag w)).setWidth 16 <<< 5 := by
  unfold fieldOp fieldImmFlag
  ext i hi
  simp only [BitVec.getElem_and, BitVec.getElem_or, BitVec.getElem_shiftLeft, BitVec.getElem_setWidth,
    BitVec.getLsbD_extractLsb']
  interval_cases i <;> simp

/-- The mask 0xF800 keeps the opcode and the mode bit of JSR and JSRR. -/
theorem masked_longFlag (w : Word) :
    w &&& 0xF800#16 = (fieldOp w).setWidth 16 <<< 12 ||| (BitVec.ofBool (fieldLongFlag w)).setWidth 16 <<< 11 := by
  unfold fieldOp fieldLongFlag
  ext i hi
  simp only [BitVec.getElem_and, BitVec.getElem_or, BitVec.getElem_shiftLeft, BitVec.getElem_setWidth,
    BitVec.getLsbD_extractLsb']
  interval_cases i <;> simp

/-- The mask 0xF0FF keeps the opcode and the trap vector. -/
theorem masked_vector (w : Word) :
    w &&& 0xF0FF#16 = (fieldOp w).setWidth 16 <<< 12 ||| (fieldVect8 w).setWidth 16 := by
  unfold fieldOp fieldVect8
  ext i hi
  simp only [BitVec.getElem_and, BitVec.getElem_or, BitVec.getElem_shiftLeft, BitVec.getElem_setWidth,
    BitVec.getLsbD_extractLsb']
  interval_cases i <;> simp

/-! ### The fields of an encoded word: each format gives its operands back (R86, R87, R93 to R95) -/

@[simp] theorem fieldOp_encPcRel (op : Opcode) (r : Reg) (off : BitVec 9) : fieldOp (encPcRel op r off) = op.toBits := by
  unfold fieldOp
  ext i hi
  simp only [encPcRel, BitVec.getElem_extractLsb', BitVec.getLsbD_append]
  interval_cases i <;> simp

@[simp] theorem fieldReg9_encPcRel (op : Opcode) (r : Reg) (off : BitVec 9) : fieldReg9 (encPcRel op r off) = r := by
  have h : (encPcRel op r off).extractLsb' 9 3 = r.toBits := by
    ext i hi
    simp only [encPcRel, BitVec.getElem_extractLsb', BitVec.getLsbD_append]
    interval_cases i <;> simp
  rw [fieldReg9, h, Reg.ofBits_toBits]

@[simp] theorem fieldOff9_encPcRel (op : Opcode) (r : Reg) (off : BitVec 9) : fieldOff9 (encPcRel op r off) = off := by
  unfold fieldOff9
  ext i hi
  simp only [encPcRel, BitVec.getElem_extractLsb', BitVec.getLsbD_append]
  interval_cases i <;> simp

@[simp] theorem fieldOp_encBaseOff (op : Opcode) (r base : Reg) (off : BitVec 6) : fieldOp (encBaseOff op r base off) = op.toBits := by
  unfold fieldOp
  ext i hi
  simp only [encBaseOff, BitVec.getElem_extractLsb', BitVec.getLsbD_append]
  interval_cases i <;> simp

@[simp] theorem fieldReg9_encBaseOff (op : Opcode) (r base : Reg) (off : BitVec 6) : fieldReg9 (encBaseOff op r base off) = r := by
  have h : (encBaseOff op r base off).extractLsb' 9 3 = r.toBits := by
    ext i hi
    simp only [encBaseOff, BitVec.getElem_extractLsb', BitVec.getLsbD_append]
    interval_cases i <;> simp
  rw [fieldReg9, h, Reg.ofBits_toBits]

@[simp] theorem fieldReg6_encBaseOff (op : Opcode) (r base : Reg) (off : BitVec 6) : fieldReg6 (encBaseOff op r base off) = base := by
  have h : (encBaseOff op r base off).extractLsb' 6 3 = base.toBits := by
    ext i hi
    simp only [encBaseOff, BitVec.getElem_extractLsb', BitVec.getLsbD_append]
    interval_cases i <;> simp
  rw [fieldReg6, h, Reg.ofBits_toBits]

@[simp] theorem fieldOff6_encBaseOff (op : Opcode) (r base : Reg) (off : BitVec 6) : fieldOff6 (encBaseOff op r base off) = off := by
  unfold fieldOff6
  ext i hi
  simp only [encBaseOff, BitVec.getElem_extractLsb', BitVec.getLsbD_append]
  interval_cases i <;> simp

@[simp] theorem fieldOp_encAluImm (op : Opcode) (dr sr1 : Reg) (imm : BitVec 5) : fieldOp (encAluImm op dr sr1 imm) = op.toBits := by
  unfold fieldOp
  ext i hi
  simp only [encAluImm, BitVec.getElem_extractLsb', BitVec.getLsbD_append]
  interval_cases i <;> simp

@[simp] theorem fieldReg9_encAluImm (op : Opcode) (dr sr1 : Reg) (imm : BitVec 5) : fieldReg9 (encAluImm op dr sr1 imm) = dr := by
  have h : (encAluImm op dr sr1 imm).extractLsb' 9 3 = dr.toBits := by
    ext i hi
    simp only [encAluImm, BitVec.getElem_extractLsb', BitVec.getLsbD_append]
    interval_cases i <;> simp
  rw [fieldReg9, h, Reg.ofBits_toBits]

@[simp] theorem fieldReg6_encAluImm (op : Opcode) (dr sr1 : Reg) (imm : BitVec 5) : fieldReg6 (encAluImm op dr sr1 imm) = sr1 := by
  have h : (encAluImm op dr sr1 imm).extractLsb' 6 3 = sr1.toBits := by
    ext i hi
    simp only [encAluImm, BitVec.getElem_extractLsb', BitVec.getLsbD_append]
    interval_cases i <;> simp
  rw [fieldReg6, h, Reg.ofBits_toBits]

@[simp] theorem fieldImm5_encAluImm (op : Opcode) (dr sr1 : Reg) (imm : BitVec 5) : fieldImm5 (encAluImm op dr sr1 imm) = imm := by
  unfold fieldImm5
  ext i hi
  simp only [encAluImm, BitVec.getElem_extractLsb', BitVec.getLsbD_append]
  interval_cases i <;> simp

@[simp] theorem fieldImmFlag_encAluImm (op : Opcode) (dr sr1 : Reg) (imm : BitVec 5) : fieldImmFlag (encAluImm op dr sr1 imm) = true := by
  unfold fieldImmFlag encAluImm
  simp only [BitVec.getLsbD_append]
  simp

@[simp] theorem fieldOp_encAluReg (op : Opcode) (dr sr1 sr2 : Reg) : fieldOp (encAluReg op dr sr1 sr2) = op.toBits := by
  unfold fieldOp
  ext i hi
  simp only [encAluReg, BitVec.getElem_extractLsb', BitVec.getLsbD_append]
  interval_cases i <;> simp

@[simp] theorem fieldReg9_encAluReg (op : Opcode) (dr sr1 sr2 : Reg) : fieldReg9 (encAluReg op dr sr1 sr2) = dr := by
  have h : (encAluReg op dr sr1 sr2).extractLsb' 9 3 = dr.toBits := by
    ext i hi
    simp only [encAluReg, BitVec.getElem_extractLsb', BitVec.getLsbD_append]
    interval_cases i <;> simp
  rw [fieldReg9, h, Reg.ofBits_toBits]

@[simp] theorem fieldReg6_encAluReg (op : Opcode) (dr sr1 sr2 : Reg) : fieldReg6 (encAluReg op dr sr1 sr2) = sr1 := by
  have h : (encAluReg op dr sr1 sr2).extractLsb' 6 3 = sr1.toBits := by
    ext i hi
    simp only [encAluReg, BitVec.getElem_extractLsb', BitVec.getLsbD_append]
    interval_cases i <;> simp
  rw [fieldReg6, h, Reg.ofBits_toBits]

@[simp] theorem fieldReg0_encAluReg (op : Opcode) (dr sr1 sr2 : Reg) : fieldReg0 (encAluReg op dr sr1 sr2) = sr2 := by
  have h : (encAluReg op dr sr1 sr2).extractLsb' 0 3 = sr2.toBits := by
    ext i hi
    simp only [encAluReg, BitVec.getElem_extractLsb', BitVec.getLsbD_append]
    interval_cases i <;> simp
  rw [fieldReg0, h, Reg.ofBits_toBits]

@[simp] theorem fieldImmFlag_encAluReg (op : Opcode) (dr sr1 sr2 : Reg) : fieldImmFlag (encAluReg op dr sr1 sr2) = false := by
  unfold fieldImmFlag encAluReg
  simp only [BitVec.getLsbD_append]
  simp

@[simp] theorem fieldOp_encTrap (v : BitVec 8) : fieldOp (encTrap v) = Opcode.trap.toBits := by
  unfold fieldOp
  ext i hi
  simp only [encTrap, BitVec.getElem_extractLsb', BitVec.getLsbD_append]
  interval_cases i <;> simp

@[simp] theorem fieldVect8_encTrap (v : BitVec 8) : fieldVect8 (encTrap v) = v := by
  unfold fieldVect8
  ext i hi
  simp only [encTrap, BitVec.getElem_extractLsb', BitVec.getLsbD_append]
  interval_cases i <;> simp

end Sys2Proof
end

