-- ==== Sys2Proof/Laws/Flags.lean ====
section
/-! SUPPORT. The values of the flag computation (R31): the three cases, and that one flag is always set. -/

namespace Sys2Proof.Machine

@[simp] theorem condOf_zero : condOf 0x0000#16 = Config.flagZ := rfl

theorem condOf_negative {v : Word} (h : v.getLsbD 15 = true) : condOf v = Config.flagN := by
  have hv : v ≠ 0x0000#16 := by rintro rfl; simp at h
  unfold condOf; rw [if_neg hv, h]; rfl

theorem condOf_positive {v : Word} (h0 : v ≠ 0x0000#16) (h : v.getLsbD 15 = false) : condOf v = Config.flagP := by
  unfold condOf; rw [if_neg h0, h]; rfl

/-- `setcc` always sets exactly one flag (R30, R31). -/
theorem oneFlag_condOf (v : Word) : oneFlag (condOf v) = true := by
  unfold condOf; split
  · rfl
  · split <;> rfl

theorem condLegal_of_oneFlag {c : BitVec 3} (h : oneFlag c = true) : condLegal c = true := by
  simp only [oneFlag, condLegal, Bool.or_eq_true] at *; tauto

end Sys2Proof.Machine
end

