-- ==== Sys2Proof/Laws/State.lean ====
section
/-! SUPPORT. The small laws of the state: one per field per update, and read over write for registers. -/

namespace Sys2Proof.Machine

/-! ### The register file -/

@[simp] theorem RegFile.get_set_self (f : RegFile) (r : Reg) (v : Word) : (f.set r v).get r = v := by
  cases r <;> rfl

theorem RegFile.get_set_ne (f : RegFile) {q r : Reg} (v : Word) (h : q ≠ r) : (f.set r v).get q = f.get q := by
  cases q <;> cases r <;> first | rfl | exact absurd rfl h

@[simp] theorem RegFile.get_set (f : RegFile) (q r : Reg) (v : Word) :
    (f.set r v).get q = if q = r then v else f.get q := by
  split
  · next h => subst h; simp
  · next h => exact f.get_set_ne v h

@[simp] theorem readReg_writeReg (q r : Reg) (v : Word) (s : State) :
    readReg q (writeReg r v s) = if q = r then v else readReg q s := by
  simp [readReg, writeReg]

@[simp] theorem readReg_setPc (q : Reg) (v : Word) (s : State) : readReg q (setPc v s) = readReg q s := rfl
@[simp] theorem readReg_setcc (q : Reg) (v : Word) (s : State) : readReg q (setcc v s) = readReg q s := rfl
@[simp] theorem readReg_poke (q : Reg) (a v : Word) (s : State) : readReg q (poke a v s) = readReg q s := rfl
@[simp] theorem readReg_writeChar (q : Reg) (b : Byte) (s : State) : readReg q (writeChar b s) = readReg q s := rfl
@[simp] theorem readReg_writeChars (q : Reg) (bs : List Byte) (s : State) :
    readReg q (writeChars bs s) = readReg q s := rfl
@[simp] theorem readReg_raiseFatal (q : Reg) (r : FatalReason) (s : State) :
    readReg q (raiseFatal r s) = readReg q s := rfl
@[simp] theorem readReg_setConsole (q : Reg) (c : Console) (s : State) :
    readReg q (setConsole c s) = readReg q s := rfl
@[simp] theorem readReg_setRun (q : Reg) (r : RunState) (s : State) : readReg q (setRun r s) = readReg q s := rfl

@[simp] theorem readReg_writeResult (q dr : Reg) (v : Word) (s : State) :
    readReg q (writeResult dr v s) = if q = dr then v else readReg q s := by
  simp [writeResult]

@[simp] theorem readReg_saveReturn (q : Reg) (s : State) :
    readReg q (saveReturn s) = if q = .r7 then s.pc else readReg q s := by
  simp [saveReturn]

/-! ### writeReg -/

@[simp] theorem writeReg_pc (r : Reg) (v : Word) (s : State) : (writeReg r v s).pc = s.pc := rfl
@[simp] theorem writeReg_cond (r : Reg) (v : Word) (s : State) : (writeReg r v s).cond = s.cond := rfl
@[simp] theorem writeReg_run (r : Reg) (v : Word) (s : State) : (writeReg r v s).run = s.run := rfl
@[simp] theorem writeReg_mem (r : Reg) (v : Word) (s : State) : (writeReg r v s).mem = s.mem := rfl
@[simp] theorem writeReg_out (r : Reg) (v : Word) (s : State) : (writeReg r v s).out = s.out := rfl
@[simp] theorem writeReg_console (r : Reg) (v : Word) (s : State) : (writeReg r v s).console = s.console := rfl

/-! ### setPc -/

@[simp] theorem setPc_regs (v : Word) (s : State) : (setPc v s).regs = s.regs := rfl
@[simp] theorem setPc_pc (v : Word) (s : State) : (setPc v s).pc = v := rfl
@[simp] theorem setPc_cond (v : Word) (s : State) : (setPc v s).cond = s.cond := rfl
@[simp] theorem setPc_run (v : Word) (s : State) : (setPc v s).run = s.run := rfl
@[simp] theorem setPc_mem (v : Word) (s : State) : (setPc v s).mem = s.mem := rfl
@[simp] theorem setPc_out (v : Word) (s : State) : (setPc v s).out = s.out := rfl
@[simp] theorem setPc_console (v : Word) (s : State) : (setPc v s).console = s.console := rfl

/-! ### setcc -/

@[simp] theorem setcc_regs (v : Word) (s : State) : (setcc v s).regs = s.regs := rfl
@[simp] theorem setcc_pc (v : Word) (s : State) : (setcc v s).pc = s.pc := rfl
@[simp] theorem setcc_cond (v : Word) (s : State) : (setcc v s).cond = condOf v := rfl
@[simp] theorem setcc_run (v : Word) (s : State) : (setcc v s).run = s.run := rfl
@[simp] theorem setcc_mem (v : Word) (s : State) : (setcc v s).mem = s.mem := rfl
@[simp] theorem setcc_out (v : Word) (s : State) : (setcc v s).out = s.out := rfl
@[simp] theorem setcc_console (v : Word) (s : State) : (setcc v s).console = s.console := rfl

/-! ### writeResult -/

@[simp] theorem writeResult_pc (r : Reg) (v : Word) (s : State) : (writeResult r v s).pc = s.pc := rfl
@[simp] theorem writeResult_cond (r : Reg) (v : Word) (s : State) : (writeResult r v s).cond = condOf v := rfl
@[simp] theorem writeResult_run (r : Reg) (v : Word) (s : State) : (writeResult r v s).run = s.run := rfl
@[simp] theorem writeResult_mem (r : Reg) (v : Word) (s : State) : (writeResult r v s).mem = s.mem := rfl
@[simp] theorem writeResult_out (r : Reg) (v : Word) (s : State) : (writeResult r v s).out = s.out := rfl
@[simp] theorem writeResult_console (r : Reg) (v : Word) (s : State) :
    (writeResult r v s).console = s.console := rfl

/-! ### saveReturn -/

@[simp] theorem saveReturn_pc (s : State) : (saveReturn s).pc = s.pc := rfl
@[simp] theorem saveReturn_cond (s : State) : (saveReturn s).cond = s.cond := rfl
@[simp] theorem saveReturn_run (s : State) : (saveReturn s).run = s.run := rfl
@[simp] theorem saveReturn_mem (s : State) : (saveReturn s).mem = s.mem := rfl
@[simp] theorem saveReturn_out (s : State) : (saveReturn s).out = s.out := rfl
@[simp] theorem saveReturn_console (s : State) : (saveReturn s).console = s.console := rfl

/-! ### poke -/

@[simp] theorem poke_regs (a v : Word) (s : State) : (poke a v s).regs = s.regs := rfl
@[simp] theorem poke_pc (a v : Word) (s : State) : (poke a v s).pc = s.pc := rfl
@[simp] theorem poke_cond (a v : Word) (s : State) : (poke a v s).cond = s.cond := rfl
@[simp] theorem poke_run (a v : Word) (s : State) : (poke a v s).run = s.run := rfl
@[simp] theorem poke_out (a v : Word) (s : State) : (poke a v s).out = s.out := rfl
@[simp] theorem poke_console (a v : Word) (s : State) : (poke a v s).console = s.console := rfl
theorem poke_mem (a v : Word) (s : State) : (poke a v s).mem = Memory.write s.mem a.toNat v := rfl

/-! ### writeChar and writeChars -/

@[simp] theorem writeChar_regs (b : Byte) (s : State) : (writeChar b s).regs = s.regs := rfl
@[simp] theorem writeChar_pc (b : Byte) (s : State) : (writeChar b s).pc = s.pc := rfl
@[simp] theorem writeChar_cond (b : Byte) (s : State) : (writeChar b s).cond = s.cond := rfl
@[simp] theorem writeChar_run (b : Byte) (s : State) : (writeChar b s).run = s.run := rfl
@[simp] theorem writeChar_mem (b : Byte) (s : State) : (writeChar b s).mem = s.mem := rfl
@[simp] theorem writeChar_out (b : Byte) (s : State) : (writeChar b s).out = s.out ++ [b] := rfl
@[simp] theorem writeChar_console (b : Byte) (s : State) : (writeChar b s).console = s.console := rfl

@[simp] theorem writeChars_regs (bs : List Byte) (s : State) : (writeChars bs s).regs = s.regs := rfl
@[simp] theorem writeChars_pc (bs : List Byte) (s : State) : (writeChars bs s).pc = s.pc := rfl
@[simp] theorem writeChars_cond (bs : List Byte) (s : State) : (writeChars bs s).cond = s.cond := rfl
@[simp] theorem writeChars_run (bs : List Byte) (s : State) : (writeChars bs s).run = s.run := rfl
@[simp] theorem writeChars_mem (bs : List Byte) (s : State) : (writeChars bs s).mem = s.mem := rfl
@[simp] theorem writeChars_out (bs : List Byte) (s : State) : (writeChars bs s).out = s.out ++ bs := rfl
@[simp] theorem writeChars_console (bs : List Byte) (s : State) : (writeChars bs s).console = s.console := rfl

/-- Writing bytes one by one is writing them together (R38). -/
theorem writeChar_eq_writeChars (b : Byte) (s : State) : writeChar b s = writeChars [b] s := rfl

@[simp] theorem writeChars_nil (s : State) : writeChars [] s = s := by simp [writeChars]

theorem writeChars_append (bs cs : List Byte) (s : State) :
    writeChars cs (writeChars bs s) = writeChars (bs ++ cs) s := by
  simp [writeChars]

/-! ### setRun -/

@[simp] theorem setRun_regs (r : RunState) (s : State) : (setRun r s).regs = s.regs := rfl
@[simp] theorem setRun_pc (r : RunState) (s : State) : (setRun r s).pc = s.pc := rfl
@[simp] theorem setRun_cond (r : RunState) (s : State) : (setRun r s).cond = s.cond := rfl
@[simp] theorem setRun_run (r : RunState) (s : State) : (setRun r s).run = r := rfl
@[simp] theorem setRun_mem (r : RunState) (s : State) : (setRun r s).mem = s.mem := rfl
@[simp] theorem setRun_out (r : RunState) (s : State) : (setRun r s).out = s.out := rfl
@[simp] theorem setRun_console (r : RunState) (s : State) : (setRun r s).console = s.console := rfl

/-! ### setConsole -/

@[simp] theorem setConsole_regs (c : Console) (s : State) : (setConsole c s).regs = s.regs := rfl
@[simp] theorem setConsole_pc (c : Console) (s : State) : (setConsole c s).pc = s.pc := rfl
@[simp] theorem setConsole_cond (c : Console) (s : State) : (setConsole c s).cond = s.cond := rfl
@[simp] theorem setConsole_run (c : Console) (s : State) : (setConsole c s).run = s.run := rfl
@[simp] theorem setConsole_mem (c : Console) (s : State) : (setConsole c s).mem = s.mem := rfl
@[simp] theorem setConsole_out (c : Console) (s : State) : (setConsole c s).out = s.out := rfl
@[simp] theorem setConsole_console (c : Console) (s : State) : (setConsole c s).console = c := rfl

/-! ### raiseFatal -/

@[simp] theorem raiseFatal_regs (r : FatalReason) (s : State) : (raiseFatal r s).regs = s.regs := rfl
@[simp] theorem raiseFatal_pc (r : FatalReason) (s : State) : (raiseFatal r s).pc = s.pc := rfl
@[simp] theorem raiseFatal_cond (r : FatalReason) (s : State) : (raiseFatal r s).cond = s.cond := rfl
@[simp] theorem raiseFatal_run (r : FatalReason) (s : State) : (raiseFatal r s).run = .fatal r := rfl
@[simp] theorem raiseFatal_mem (r : FatalReason) (s : State) : (raiseFatal r s).mem = s.mem := rfl
@[simp] theorem raiseFatal_out (r : FatalReason) (s : State) : (raiseFatal r s).out = s.out := rfl
@[simp] theorem raiseFatal_console (r : FatalReason) (s : State) : (raiseFatal r s).console = s.console := rfl

/-! ### trapFlags: no trap service writes the flags (D8) -/

@[simp] theorem trapFlags_eq (v : Word) (s : State) : trapFlags v s = s := by
  simp [trapFlags, Config.trapSetsFlags]

end Sys2Proof.Machine
end

