-- ==== Sys2Proof/Laws/Memory.lean ====
section
/-! SUPPORT. The laws of the storage: read over write, and that every memory operation keeps the canonical form. -/

namespace Sys2Proof.Machine

/-! ### Read over write -/

theorem Memory.read_erase (m : Memory) (a b : Nat) :
    Memory.read (Memory.erase m a) b = if b = a then Memory.unlisted else Memory.read m b := by
  induction m with
  | nil => simp [Memory.erase, Memory.read]
  | cons c m ih =>
    obtain ⟨k, w⟩ := c
    unfold Memory.erase at ih ⊢
    by_cases hk : k = a
    · subst hk
      by_cases hb : b = k <;> simp_all [Memory.read]
    · by_cases hb : b = a
      · subst hb; simp_all [Memory.read, Ne.symm hk]
      · simp_all [Memory.read]

theorem Memory.read_insert (m : Memory) (a b : Nat) (v : Word) :
    Memory.read (Memory.insert m a v) b = if b = a then v else Memory.read m b := by
  induction m with
  | nil => simp [Memory.insert, Memory.read]
  | cons c m ih =>
    obtain ⟨k, w⟩ := c
    unfold Memory.insert
    split
    · simp [Memory.read]
    · split
      · next h => subst h; by_cases hb : b = a <;> simp [Memory.read, hb]
      · next h1 h2 =>
        by_cases hk : b = k
        · subst hk; simp [Memory.read, Ne.symm h2]
        · simp [Memory.read, hk, ih]

/-- A read after a write: the value written at that address, the old value everywhere else. -/
@[simp] theorem Memory.read_write (m : Memory) (a b : Nat) (v : Word) :
    Memory.read (Memory.write m a v) b = if b = a then v else Memory.read m b := by
  unfold Memory.write
  split
  · next h => rw [Memory.read_erase, h]
  · exact Memory.read_insert m a b v

@[simp] theorem peek_poke (a b v : Word) (s : State) : peek b (poke a v s) = if b = a then v else peek b s := by
  simp [peek, poke, BitVec.toNat_inj]

/-! ### Peek sees the storage only -/

@[simp] theorem peek_writeReg (a : Word) (r : Reg) (v : Word) (s : State) : peek a (writeReg r v s) = peek a s := rfl
@[simp] theorem peek_setPc (a v : Word) (s : State) : peek a (setPc v s) = peek a s := rfl
@[simp] theorem peek_setcc (a v : Word) (s : State) : peek a (setcc v s) = peek a s := rfl
@[simp] theorem peek_writeResult (a : Word) (r : Reg) (v : Word) (s : State) :
    peek a (writeResult r v s) = peek a s := rfl
@[simp] theorem peek_saveReturn (a : Word) (s : State) : peek a (saveReturn s) = peek a s := rfl
@[simp] theorem peek_writeChar (a : Word) (b : Byte) (s : State) : peek a (writeChar b s) = peek a s := rfl
@[simp] theorem peek_writeChars (a : Word) (bs : List Byte) (s : State) : peek a (writeChars bs s) = peek a s := rfl
@[simp] theorem peek_raiseFatal (a : Word) (r : FatalReason) (s : State) : peek a (raiseFatal r s) = peek a s := rfl
@[simp] theorem peek_setConsole (a : Word) (c : Console) (s : State) : peek a (setConsole c s) = peek a s := rfl
@[simp] theorem peek_setRun (a : Word) (r : RunState) (s : State) : peek a (setRun r s) = peek a s := rfl

/-! ### The canonical form -/

theorem Memory.wf_nil : Memory.wf [] := by simp [Memory.wf]

theorem Memory.mem_insert {m : Memory} {a : Nat} {v : Word} {c : Nat × Word} (h : c ∈ Memory.insert m a v) :
    c = (a, v) ∨ c ∈ m := by
  induction m with
  | nil => simpa [Memory.insert] using h
  | cons d m ih =>
    obtain ⟨k, w⟩ := d
    unfold Memory.insert at h
    split at h
    · simpa using h
    · split at h
      · rcases List.mem_cons.mp h with h | h
        · exact .inl h
        · exact .inr (List.mem_cons_of_mem _ h)
      · rcases List.mem_cons.mp h with h | h
        · exact .inr (h ▸ List.mem_cons_self)
        · exact (ih h).imp_right (List.mem_cons_of_mem _)

theorem Memory.pairwise_insert {m : Memory} (h : m.Pairwise (fun c d => c.1 < d.1)) (a : Nat) (v : Word) :
    (Memory.insert m a v).Pairwise (fun c d => c.1 < d.1) := by
  induction m with
  | nil => simp [Memory.insert]
  | cons d m ih =>
    obtain ⟨k, w⟩ := d
    obtain ⟨hk, hm⟩ := List.pairwise_cons.mp h
    unfold Memory.insert
    split
    · next hlt =>
      refine List.pairwise_cons.mpr ⟨?_, h⟩
      intro c hc
      rcases List.mem_cons.mp hc with rfl | hc
      · exact hlt
      · exact Nat.lt_trans hlt (hk c hc)
    · split
      · next heq => subst heq; exact List.pairwise_cons.mpr ⟨hk, hm⟩
      · next h1 h2 =>
        refine List.pairwise_cons.mpr ⟨?_, ih hm⟩
        intro c hc
        rcases Memory.mem_insert hc with rfl | hc
        · simp only at *; omega
        · exact hk c hc

theorem Memory.wf_write {m : Memory} (h : m.wf) {a : Nat} (ha : a < 65536) (v : Word) :
    (Memory.write m a v).wf := by
  obtain ⟨hp, hc⟩ := h
  unfold Memory.write
  split
  · exact ⟨hp.sublist List.filter_sublist, fun c hcm => hc c (List.mem_filter.mp hcm).1⟩
  · next hv =>
    refine ⟨Memory.pairwise_insert hp a v, fun c hcm => ?_⟩
    rcases Memory.mem_insert hcm with rfl | hcm
    · exact ⟨ha, hv⟩
    · exact hc c hcm

theorem Memory.wf_loadImage {m : Memory} (h : m.wf) (origin : Nat) (words : List Word) :
    (Memory.loadImage m origin words).wf := by
  induction words generalizing m origin with
  | nil => exact h
  | cons w ws ih =>
    unfold Memory.loadImage
    split
    · exact h
    · next ho => exact ih (Memory.wf_write h (by omega) w) _

theorem poke_wf {s : State} (h : s.mem.wf) (a v : Word) : (poke a v s).mem.wf :=
  Memory.wf_write h a.isLt v

end Sys2Proof.Machine
end

