-- ==== Sys2Proof/Laws/Ops.lean ====
section
/-! SUPPORT. What the shared operations can do: `kbsrRefresh`, `memRead`, `fetch` and the string loop. Later proofs cite
these and do not unfold the operations. -/

namespace Sys2Proof.Machine

/-! ### The KBSR refresh (R54) -/

/-- A refresh does one of two things: it stores the ready value and the pending character, or it clears KBSR. -/
theorem kbsrRefresh_cases (s : State) :
    (∃ b c, s.console.keyAvailable.1 = true ∧ s.console.keyAvailable.2.readChar = some (b, c) ∧
      kbsrRefresh s =
        setConsole c (poke Config.kbdrAddr (zext16 b) (poke Config.kbsrAddr Config.kbsrReady s))) ∨
    (s.console.keyAvailable.1 = false ∧
      kbsrRefresh s = setConsole s.console.keyAvailable.2 (poke Config.kbsrAddr 0x0000#16 s)) := by
  unfold kbsrRefresh
  dsimp only
  cases hk : s.console.keyAvailable.1
  · exact .inr ⟨rfl, rfl⟩
  · cases hr : s.console.keyAvailable.2.readChar with
    | none =>
      have : s.console.drawKey.2.readChar.isSome = true := by
        simp only [Console.keyAvailable, Bool.and_eq_true] at hk; exact hk.2
      simp only [Console.keyAvailable] at hr
      simp [hr] at this
    | some p => exact .inl ⟨p.1, p.2, rfl, rfl, rfl⟩

@[simp] theorem kbsrRefresh_regs (s : State) : (kbsrRefresh s).regs = s.regs := by
  rcases kbsrRefresh_cases s with ⟨b, c, -, -, h⟩ | ⟨-, h⟩ <;> rw [h] <;> rfl
@[simp] theorem kbsrRefresh_pc (s : State) : (kbsrRefresh s).pc = s.pc := by
  rcases kbsrRefresh_cases s with ⟨b, c, -, -, h⟩ | ⟨-, h⟩ <;> rw [h] <;> rfl
@[simp] theorem kbsrRefresh_cond (s : State) : (kbsrRefresh s).cond = s.cond := by
  rcases kbsrRefresh_cases s with ⟨b, c, -, -, h⟩ | ⟨-, h⟩ <;> rw [h] <;> rfl
@[simp] theorem kbsrRefresh_run (s : State) : (kbsrRefresh s).run = s.run := by
  rcases kbsrRefresh_cases s with ⟨b, c, -, -, h⟩ | ⟨-, h⟩ <;> rw [h] <;> rfl
@[simp] theorem kbsrRefresh_out (s : State) : (kbsrRefresh s).out = s.out := by
  rcases kbsrRefresh_cases s with ⟨b, c, -, -, h⟩ | ⟨-, h⟩ <;> rw [h] <;> rfl

/-- A refresh writes no cell but KBSR and KBDR. -/
theorem kbsrRefresh_peek (s : State) {a : Word} (h1 : a ≠ Config.kbsrAddr) (h2 : a ≠ Config.kbdrAddr) :
    peek a (kbsrRefresh s) = peek a s := by
  rcases kbsrRefresh_cases s with ⟨b, c, -, -, h⟩ | ⟨-, h⟩ <;> rw [h] <;> simp [h1, h2]

theorem kbsrRefresh_wf {s : State} (hw : s.mem.wf) : (kbsrRefresh s).mem.wf := by
  rcases kbsrRefresh_cases s with ⟨b, c, -, -, h⟩ | ⟨-, h⟩ <;> rw [h, setConsole_mem]
  · exact poke_wf (poke_wf hw _ _) _ _
  · exact poke_wf hw _ _

/-! ### MemRead (R53, R56) -/

/-- A read anywhere but at KBSR has no side effect. -/
theorem afterRead_of_ne {a : Word} (s : State) (h : a ≠ Config.kbsrAddr) : afterRead a s = s := if_neg h

theorem afterRead_kbsr (s : State) : afterRead Config.kbsrAddr s = kbsrRefresh s := if_pos rfl

@[simp] theorem memRead_fst (a : Word) (s : State) : (memRead a s).1 = peek a (afterRead a s) := rfl
@[simp] theorem memRead_snd (a : Word) (s : State) : (memRead a s).2 = afterRead a s := rfl

@[simp] theorem afterRead_regs (a : Word) (s : State) : (afterRead a s).regs = s.regs := by
  unfold afterRead; split <;> simp
@[simp] theorem afterRead_pc (a : Word) (s : State) : (afterRead a s).pc = s.pc := by
  unfold afterRead; split <;> simp
@[simp] theorem afterRead_cond (a : Word) (s : State) : (afterRead a s).cond = s.cond := by
  unfold afterRead; split <;> simp
@[simp] theorem afterRead_run (a : Word) (s : State) : (afterRead a s).run = s.run := by
  unfold afterRead; split <;> simp
@[simp] theorem afterRead_out (a : Word) (s : State) : (afterRead a s).out = s.out := by
  unfold afterRead; split <;> simp
@[simp] theorem readReg_afterRead (r : Reg) (a : Word) (s : State) : readReg r (afterRead a s) = readReg r s := by
  simp [readReg]

theorem afterRead_peek (b : Word) (s : State) {a : Word} (h1 : a ≠ Config.kbsrAddr) (h2 : a ≠ Config.kbdrAddr) :
    peek a (afterRead b s) = peek a s := by
  unfold afterRead; split
  · exact kbsrRefresh_peek s h1 h2
  · rfl

theorem afterRead_wf (a : Word) {s : State} (h : s.mem.wf) : (afterRead a s).mem.wf := by
  unfold afterRead; split
  · exact kbsrRefresh_wf h
  · exact h

/-! ### Fetch (R121) -/

theorem fetch_eq (s : State) :
    fetch s = (peek s.pc (afterRead s.pc s), setPc (s.pc + 1) (afterRead s.pc s)) := by
  simp [fetch, memRead]

/-! ### The string loop (R204, R207) -/

/-- All that a string loop can change: `out` grows, the console moves on, and KBSR and KBDR may be refreshed. -/
theorem stringLoop_frame {word : Word → List Byte × Bool} {n : Nat} {a : Word} {s t : State}
    (h : stringLoop word n a s = some t) :
    t.regs = s.regs ∧ t.pc = s.pc ∧ t.cond = s.cond ∧ t.run = s.run ∧ (∃ bs, t.out = s.out ++ bs) ∧
    (∀ b, b ≠ Config.kbsrAddr → b ≠ Config.kbdrAddr → peek b t = peek b s) ∧ (s.mem.wf → t.mem.wf) := by
  induction n generalizing a s with
  | zero => cases h
  | succ n ih =>
    unfold stringLoop at h
    simp only at h
    split at h
    · obtain ⟨h1, h2, h3, h4, ⟨bs, h5⟩, h6, h7⟩ := ih h
      refine ⟨by simpa using h1, by simpa using h2, by simpa using h3, by simpa using h4,
        ⟨_, by simpa using h5⟩, fun b hb hb' => ?_, fun hw => h7 (afterRead_wf a hw)⟩
      rw [h6 b hb hb']; exact afterRead_peek a s hb hb'
    · cases h
      exact ⟨by simp, by simp, by simp, by simp, ⟨_, by simp; rfl⟩,
        fun b hb hb' => afterRead_peek a s hb hb', fun hw => afterRead_wf a hw⟩

/-- One turn of a string loop. -/
theorem stringLoop_succ (word : Word → List Byte × Bool) (n : Nat) (a : Word) (s : State) :
    stringLoop word (n + 1) a s =
      if (word (memRead a s).1).2
      then stringLoop word n (a + 1) (writeChars (word (memRead a s).1).1 (memRead a s).2)
      else some (writeChars (word (memRead a s).1).1 (memRead a s).2) := rfl

/-- A loop that ends ends alike however many more words it is allowed. -/
theorem stringLoop_mono {word : Word → List Byte × Bool} {n m : Nat} {a : Word} {s t : State}
    (h : stringLoop word n a s = some t) (hm : n ≤ m) : stringLoop word m a s = some t := by
  induction n generalizing a s m with
  | zero => cases h
  | succ n ih =>
    obtain ⟨m, rfl⟩ : ∃ k, m = k + 1 := ⟨m - 1, by omega⟩
    rw [stringLoop_succ] at h ⊢
    split at h
    · rw [if_pos ‹_›]; exact ih h (by omega)
    · rw [if_neg ‹_›]; exact h

/-- The first try of `stringRun` changes nothing: it is the loop of `stringBound` words. -/
theorem stringRun_eq (word : Word → List Byte × Bool) (s : State) :
    stringRun word s = stringLoop word (stringBound s) (stringStart s) s := by
  unfold stringRun
  split
  · next t h => exact (stringLoop_mono h (by have := stringBound_pos s; omega)).symm
  · rfl

end Sys2Proof.Machine
end

