-- ==== Sys2Proof/Laws/PerInstr.lean ====
section
/-! SUPPORT. Statements made per instruction. `EncodeMatchesRow`: the word of a well-formed instruction has, under the
mask of its row of the encoding summary (30_encoding.md, section 8), the row's match value. -/

namespace Sys2Proof.Laws.EncodeMatchesRow

/-- The instruction's word matches the instruction's row of `opcodeTable`. -/
def Statement (i : Instr) : Prop :=
  i.wf = true → ∃ r, opcodeTable[i.rowIndex]? = some r ∧ encode i &&& r.mask = r.bits

/-- The top four bits of a word in format PC-relative are the opcode (R93). -/
theorem encPcRel_masked (op : Opcode) (r : Reg) (off : BitVec 9) :
    encPcRel op r off &&& 0xF000#16 = (op.toBits ++ 0#12).setWidth 16 := by
  unfold encPcRel
  ext i hi
  simp only [BitVec.getElem_and, BitVec.getElem_append, BitVec.getElem_setWidth, BitVec.getLsbD_append]
  interval_cases i <;> simp

/-- The same of format base+offset (R94). -/
theorem encBaseOff_masked (op : Opcode) (r base : Reg) (off : BitVec 6) :
    encBaseOff op r base off &&& 0xF000#16 = (op.toBits ++ 0#12).setWidth 16 := by
  unfold encBaseOff
  ext i hi
  simp only [BitVec.getElem_and, BitVec.getElem_append, BitVec.getElem_setWidth, BitVec.getLsbD_append]
  interval_cases i <;> simp

/-- The opcode and the set mode bit of format ALU-imm (R87). -/
theorem encAluImm_masked (op : Opcode) (dr sr1 : Reg) (imm : BitVec 5) :
    encAluImm op dr sr1 imm &&& 0xF020#16 = (op.toBits ++ 0b000000100000#12).setWidth 16 := by
  unfold encAluImm
  ext i hi
  simp only [BitVec.getElem_and, BitVec.getElem_append, BitVec.getElem_setWidth, BitVec.getLsbD_append]
  interval_cases i <;> simp

/-- The opcode and the clear mode bit of format ALU-reg (R86). -/
theorem encAluReg_masked (op : Opcode) (dr sr1 sr2 : Reg) :
    encAluReg op dr sr1 sr2 &&& 0xF020#16 = (op.toBits ++ 0#12).setWidth 16 := by
  unfold encAluReg
  ext i hi
  simp only [BitVec.getElem_and, BitVec.getElem_append, BitVec.getElem_setWidth, BitVec.getLsbD_append]
  interval_cases i <;> simp

theorem br (nzp : BitVec 3) (off : BitVec 9) : Statement (.br nzp off) :=
  fun _ => ⟨_, rfl, by
    unfold encode; ext i hi
    simp only [BitVec.getElem_and, BitVec.getElem_append]
    interval_cases i <;> simp [Opcode.toBits]⟩

theorem addReg (dr sr1 sr2 : Reg) : Statement (.addReg dr sr1 sr2) :=
  fun _ => ⟨_, rfl, encAluReg_masked _ _ _ _⟩

theorem addImm (dr sr1 : Reg) (imm : BitVec 5) : Statement (.addImm dr sr1 imm) :=
  fun _ => ⟨_, rfl, encAluImm_masked _ _ _ _⟩

theorem ld (dr : Reg) (off : BitVec 9) : Statement (.ld dr off) :=
  fun _ => ⟨_, rfl, encPcRel_masked _ _ _⟩

theorem st (sr : Reg) (off : BitVec 9) : Statement (.st sr off) :=
  fun _ => ⟨_, rfl, encPcRel_masked _ _ _⟩

theorem jsr (off : BitVec 11) : Statement (.jsr off) :=
  fun _ => ⟨_, rfl, by
    unfold encode; ext i hi
    simp only [BitVec.getElem_and, BitVec.getElem_append]
    interval_cases i <;> simp [Opcode.toBits]⟩

theorem jsrr (base : Reg) : Statement (.jsrr base) :=
  fun _ => ⟨_, rfl, by cases base <;> rfl⟩

theorem andReg (dr sr1 sr2 : Reg) : Statement (.andReg dr sr1 sr2) :=
  fun _ => ⟨_, rfl, encAluReg_masked _ _ _ _⟩

theorem andImm (dr sr1 : Reg) (imm : BitVec 5) : Statement (.andImm dr sr1 imm) :=
  fun _ => ⟨_, rfl, encAluImm_masked _ _ _ _⟩

theorem ldr (dr base : Reg) (off : BitVec 6) : Statement (.ldr dr base off) :=
  fun _ => ⟨_, rfl, encBaseOff_masked _ _ _ _⟩

theorem str (sr base : Reg) (off : BitVec 6) : Statement (.str sr base off) :=
  fun _ => ⟨_, rfl, encBaseOff_masked _ _ _ _⟩

theorem rti : Statement .rti := fun _ => ⟨_, rfl, rfl⟩

theorem not (dr sr : Reg) : Statement (.not dr sr) :=
  fun _ => ⟨_, rfl, by cases dr <;> cases sr <;> rfl⟩

theorem ldi (dr : Reg) (off : BitVec 9) : Statement (.ldi dr off) :=
  fun _ => ⟨_, rfl, encPcRel_masked _ _ _⟩

theorem sti (sr : Reg) (off : BitVec 9) : Statement (.sti sr off) :=
  fun _ => ⟨_, rfl, encPcRel_masked _ _ _⟩

theorem jmp (base : Reg) : Statement (.jmp base) :=
  fun _ => ⟨_, rfl, by cases base <;> rfl⟩

theorem res : Statement .res := fun _ => ⟨_, rfl, rfl⟩

theorem lea (dr : Reg) (off : BitVec 9) : Statement (.lea dr off) :=
  fun _ => ⟨_, rfl, encPcRel_masked _ _ _⟩

theorem trapGetc : Statement .trapGetc := fun _ => ⟨_, rfl, rfl⟩

theorem trapOut : Statement .trapOut := fun _ => ⟨_, rfl, rfl⟩

theorem trapPuts : Statement .trapPuts := fun _ => ⟨_, rfl, rfl⟩

theorem trapIn : Statement .trapIn := fun _ => ⟨_, rfl, rfl⟩

theorem trapPutsp : Statement .trapPutsp := fun _ => ⟨_, rfl, rfl⟩

theorem trapHalt : Statement .trapHalt := fun _ => ⟨_, rfl, rfl⟩

theorem trapOther (v : BitVec 8) : Statement (.trapOther v) :=
  fun _ => ⟨_, rfl, by
    unfold encode encTrap; ext i hi
    simp only [BitVec.getElem_and, BitVec.getElem_append]
    interval_cases i <;> simp [Opcode.toBits]⟩

end Sys2Proof.Laws.EncodeMatchesRow
end

