-- ==== Sys2Proof/Laws/Step.lean ====
section
/-! SUPPORT. Inversion: what holds when a step, or a service that may hang, answers a next state; and the induction over
runs, packaged once. -/

namespace Sys2Proof.Machine

/-- A step answers a next state only from a running machine, and then it is the decoded instruction's (R120, R125). -/
theorem step_next {s t : State} (h : step s = .next t) :
    s.run = .running ∧ exec (decodeWord (fetch s).1) (fetch s).2 = .next t := by
  unfold step at h
  split at h
  · next hr => exact ⟨hr, h⟩
  · cases h
  · cases h

/-- GETC answers a next state only with a character that came (R202). -/
theorem execTrapGetc_next {s t : State} (h : execTrapGetc s = .next t) :
    ∃ b c, s.console.readChar = some (b, c) ∧ t = receiveChar b (setConsole c (saveReturn s)) := by
  unfold execTrapGetc at h
  dsimp only at h
  split at h
  · next b c hc => cases h; exact ⟨b, c, hc, rfl⟩
  · cases h

/-- IN answers a next state only with a character that came (R205). -/
theorem execTrapIn_next {s t : State} (h : execTrapIn s = .next t) :
    ∃ b c, s.console.readChar = some (b, c) ∧
      t = receiveChar b (writeChar b (setConsole c (writeChars Config.inPrompt (saveReturn s)))) := by
  unfold execTrapIn at h
  dsimp only at h
  split at h
  · next b c hc => cases h; exact ⟨b, c, hc, rfl⟩
  · cases h

/-- PUTS runs its string loop for `stringBound` words: it answers the state the loop ends in, or the hang (R204, R208). -/
theorem execTrapPuts_eq (s : State) :
    execTrapPuts s =
      match stringLoop putsWord (stringBound (saveReturn s)) (readReg .r0 s) (saveReturn s) with
      | some t => .next t
      | none => .fault .stringNeverEnds := by
  have hs : stringStart (saveReturn s) = readReg .r0 s := by simp [stringStart]
  unfold execTrapPuts
  simp only [stringRun_eq, hs] <;> rfl

/-- PUTSP likewise (R207, R208). -/
theorem execTrapPutsp_eq (s : State) :
    execTrapPutsp s =
      match stringLoop (putspWord .lowThenTestHigh) (stringBound (saveReturn s)) (readReg .r0 s) (saveReturn s) with
      | some t => .next t
      | none => .fault .stringNeverEnds := by
  have hs : stringStart (saveReturn s) = readReg .r0 s := by simp [stringStart]
  unfold execTrapPutsp
  simp only [stringRun_eq, hs, Config.putspMode] <;> rfl

/-- PUTS answers a next state exactly when its string loop ends within the bound (R204). -/
theorem execTrapPuts_next {s t : State} :
    execTrapPuts s = .next t ↔
      stringLoop putsWord (stringBound (saveReturn s)) (readReg .r0 s) (saveReturn s) = some t := by
  rw [execTrapPuts_eq]
  split
  · next u hu => rw [hu]; constructor <;> intro h <;> cases h <;> rfl
  · next hu => rw [hu]; constructor <;> intro h <;> cases h

/-- PUTSP answers a next state exactly when its string loop ends within the bound (R207). -/
theorem execTrapPutsp_next {s t : State} :
    execTrapPutsp s = .next t ↔
      stringLoop (putspWord .lowThenTestHigh) (stringBound (saveReturn s)) (readReg .r0 s) (saveReturn s) =
        some t := by
  rw [execTrapPutsp_eq]
  split
  · next u hu => rw [hu]; constructor <;> intro h <;> cases h <;> rfl
  · next hu => rw [hu]; constructor <;> intro h <;> cases h

/-- What holds of a state and is kept by every step holds of every state reached from it. -/
theorem Reaches.induct {P : State → Prop} (keep : ∀ s t, P s → step s = .next t → P t) {s t : State}
    (hs : P s) (h : Reaches s t) : P t := by
  induction h with
  | refl => exact hs
  | tail _ h' ih => exact keep _ _ ih h'

end Sys2Proof.Machine
end

