-- ==== Sys2Proof/Laws/Strings.lean ====
section
/-! SUPPORT. The bound of the string loop is exact (log 7): where a loop that stops at the zero word alone finds no stop
word within `stringBound`, it finds none at all. That is the hang of 44_trap.md R208 and 60_exceptions.md R236. -/

namespace Sys2Proof.Machine

/-! ### What a poll that answers true leaves of the console -/

theorem runOver_none (n : Nat) : runOver none n = false := rfl

/-- A free byte is 0x00 only where its run ends. -/
theorem Console.freeByte_eq_zero {c : Console} : c.freeByte = 0x00#8 ↔ c.zeroByteNext = true := by
  unfold Console.freeByte
  split
  · next h => simp [h]
  · next h =>
    have := (Config.freeChar c.charRun c.charDone).isLt
    refine iff_of_false (fun he => ?_) h
    have := congrArg BitVec.toNat he
    simp at this
    omega

/-- `key_available()` answers true by a scripted answer or by a free one inside its run. -/
theorem Console.keyAvailable_true {c : Console} (h : c.keyAvailable.1 = true) :
    (∃ rest, c.keyAnswers = true :: rest ∧ c.keyAvailable.2 = { c with keyAnswers := rest }) ∨
    (c.keyAnswers = [] ∧ c.notReadyNext = false ∧ c.keyAvailable.2 = { c with keyDone := c.keyDone + 1 }) := by
  simp only [Console.keyAvailable, Bool.and_eq_true] at h ⊢
  rcases c.drawKey_cases with ⟨k, rest, hk, hd⟩ | ⟨hk, hd⟩ <;> rw [hd] at h ⊢
  · obtain ⟨rfl, -⟩ := h
    exact .inl ⟨rest, hk, rfl⟩
  · have hn : c.notReadyNext = false := by simpa using h.1
    exact .inr ⟨hk, hn, by simp [Console.afterFreeKey, hn]⟩

/-! ### A loop that ends -/

/-- One address nearer to another on the way up. -/
theorem toNat_sub_succ {z a : Word} (h : z ≠ a) : (z - (a + 1)).toNat + 1 = (z - a).toNat := by
  have : z.toNat ≠ a.toNat := fun e => h (BitVec.eq_of_toNat_eq e)
  bv_omega

/-- The word function of a loop that stops at 0x0000 and nowhere else, as PUTS does (R204). -/
def StopsAtZeroOnly (word : Word → List Byte × Bool) : Prop := ∀ w, (word w).2 = true ↔ w ≠ 0x0000#16

theorem putsWord_stopsAtZeroOnly : StopsAtZeroOnly putsWord := by
  intro w; unfold putsWord; split <;> simp [*]

variable {word : Word → List Byte × Bool}

/-- One turn of such a loop. -/
theorem StopsAtZeroOnly.turn (hw : StopsAtZeroOnly word) (n : Nat) (a : Word) (s : State) :
    (peek a (afterRead a s) = 0x0000#16 ∧
      stringLoop word (n + 1) a s = some (writeChars (word 0x0000#16).1 (afterRead a s))) ∨
    (peek a (afterRead a s) ≠ 0x0000#16 ∧ ∃ bs,
      stringLoop word (n + 1) a s = stringLoop word n (a + 1) (writeChars bs (afterRead a s))) := by
  by_cases h : peek a (afterRead a s) = 0x0000#16
  · have : (word 0x0000#16).2 = false := by
      cases hb : (word 0x0000#16).2
      · rfl
      · exact absurd rfl ((hw _).1 hb)
    exact .inl ⟨h, by rw [stringLoop_succ]; simp [h, this]⟩
  · exact .inr ⟨h, _, by rw [stringLoop_succ, memRead_fst, memRead_snd, if_pos ((hw _).2 h)]⟩

/-- A zero word outside the keyboard cells ends the loop when it is reached. -/
theorem StopsAtZeroOnly.ends_at_zero (hw : StopsAtZeroOnly word) {z : Word} (h1 : z ≠ Config.kbsrAddr)
    (h2 : z ≠ Config.kbdrAddr) (n : Nat) (a : Word) (s : State) (h0 : peek z s = 0x0000#16)
    (h : (z - a).toNat + 1 ≤ n) : ∃ t, stringLoop word n a s = some t := by
  induction n generalizing a s with
  | zero => omega
  | succ n ih =>
    rcases hw.turn n a s with ⟨-, e⟩ | ⟨hne, bs, e⟩
    · exact ⟨_, e⟩
    · have ha : z ≠ a := fun e => hne (by subst e; rw [afterRead_of_ne _ h1, h0])
      have := toNat_sub_succ ha
      rw [e]
      exact ih _ _ (by rw [peek_writeChars, afterRead_peek _ _ h1 h2, h0]) (by omega)

/-- A loop just past a refresh that put a zero in KBDR ends at KBDR at the latest. -/
theorem StopsAtZeroOnly.ends_at_kbdr (hw : StopsAtZeroOnly word) {a : Word} (ha : a = 0xFE01#16 ∨ a = 0xFE02#16)
    (n : Nat) (s : State) (h0 : peek Config.kbdrAddr s = 0x0000#16) : ∃ t, stringLoop word (n + 2) a s = some t := by
  have at2 : ∀ (n : Nat) (s : State), peek Config.kbdrAddr s = 0x0000#16 →
      ∃ t, stringLoop word (n + 1) 0xFE02#16 s = some t := by
    intro n s h
    rcases hw.turn n 0xFE02#16 s with ⟨-, e⟩ | ⟨hne, -⟩
    · exact ⟨_, e⟩
    · exact absurd (by rw [afterRead_of_ne _ (by decide)]; exact h) hne
  rcases ha with rfl | rfl
  · rcases hw.turn (n + 1) 0xFE01#16 s with ⟨-, e⟩ | ⟨-, bs, e⟩
    · exact ⟨_, e⟩
    · rw [e]
      exact at2 n _ (by rw [peek_writeChars, afterRead_of_ne _ (by decide)]; exact h0)
  · exact at2 (n + 1) s h0

/-- What a refresh that does not stop the loop leaves: a byte `b` in KBDR, the ready value in KBSR, and the console after
both calls. -/
theorem kbsrRefresh_of_ne {s : State} (h : peek Config.kbsrAddr (kbsrRefresh s) ≠ 0x0000#16) :
    ∃ b c, s.console.keyAvailable.1 = true ∧ s.console.keyAvailable.2.readChar = some (b, c) ∧
      (kbsrRefresh s).console = c ∧ peek Config.kbdrAddr (kbsrRefresh s) = zext16 b := by
  rcases kbsrRefresh_cases s with ⟨b, c, hk, hr, e⟩ | ⟨-, e⟩
  · exact ⟨b, c, hk, hr, by rw [e]; rfl, by rw [e]; simp⟩
  · exact absurd (by rw [e]; simp) h

theorem zext16_eq_zero {b : Byte} : zext16 b = 0x0000#16 ↔ b = 0x00#8 := by
  refine ⟨fun h => ?_, fun h => by subst h; rfl⟩
  have := congrArg BitVec.toNat h
  apply BitVec.eq_of_toNat_eq
  simp [zext16] at this ⊢
  omega

/-- A loop ends when the console can give only so many polls that answer true with a non-zero byte: `left` counts them,
for the consoles of `P`. -/
theorem StopsAtZeroOnly.ends_by_console (hw : StopsAtZeroOnly word) {P : Console → Prop} {left : Console → Nat}
    (hP : ∀ c b c', P c → c.keyAvailable.1 = true → c.keyAvailable.2.readChar = some (b, c') → b ≠ 0x00#8 →
      P c' ∧ left c' < left c)
    (n : Nat) (a : Word) (s : State) (hs : P s.console)
    (h : (Config.kbsrAddr - a).toNat + 3 + 65536 * left s.console ≤ n) : ∃ t, stringLoop word n a s = some t := by
  induction n generalizing a s with
  | zero => omega
  | succ n ih =>
    rcases hw.turn n a s with ⟨-, e⟩ | ⟨hne, bs, e⟩
    · exact ⟨_, e⟩
    · rw [e]
      by_cases ha : Config.kbsrAddr = a
      · subst ha
        rw [afterRead_kbsr] at hne ⊢
        obtain ⟨b, c, hk, hr, hc, hd⟩ := kbsrRefresh_of_ne hne
        by_cases hb : b = 0x00#8
        · obtain ⟨m, rfl⟩ : ∃ m, n = m + 2 := ⟨n - 2, by omega⟩
          exact hw.ends_at_kbdr (.inl rfl) m _ (by rw [peek_writeChars, hd, zext16_eq_zero.2 hb])
        · obtain ⟨h1, h2⟩ := hP _ _ _ hs hk hr hb
          have : (Config.kbsrAddr - (Config.kbsrAddr + 1#16)).toNat = 65535 := by decide
          exact ih _ _ (by rw [writeChars_console, hc]; exact h1) (by rw [writeChars_console, hc]; omega)
      · rw [afterRead_of_ne _ (Ne.symm ha)]
        have := toNat_sub_succ ha
        exact ih _ _ hs (by rw [writeChars_console]; omega)

/-- Input that ends allows only as many ready polls as bytes are left. -/
theorem Console.ended_left {c c' : Console} {b : Byte} (he : c.ended = true) (hk : c.keyAvailable.1 = true)
    (hr : c.keyAvailable.2.readChar = some (b, c')) :
    c'.ended = true ∧ c'.charAnswers.length < c.charAnswers.length := by
  rcases Console.keyAvailable_true hk with ⟨rest, -, e⟩ | ⟨-, -, e⟩ <;> rw [e] at hr <;>
    rcases Console.readChar_cases hr with ⟨cs, h1, rfl⟩ | ⟨-, h2, -⟩
  · exact ⟨he, by simp at h1; simp [h1]⟩
  · simp [he] at h2
  · exact ⟨he, by simp at h1; simp [h1]⟩
  · simp [he] at h2

/-- A run of free poll answers that ends allows only so many ready polls. -/
theorem Console.keyRun_left {n : Nat} {c c' : Console} {b : Byte} (hn : Config.freeKeyRun c.keyRun = some n)
    (hk : c.keyAvailable.1 = true) (hr : c.keyAvailable.2.readChar = some (b, c')) :
    Config.freeKeyRun c'.keyRun = some n ∧
    c'.keyAnswers.length + (n - c'.keyDone) < c.keyAnswers.length + (n - c.keyDone) := by
  rcases Console.keyAvailable_true hk with ⟨rest, hl, e⟩ | ⟨hl, ho, e⟩ <;> rw [e] at hr <;>
    rcases Console.readChar_cases hr with ⟨cs, -, rfl⟩ | ⟨-, -, -, rfl⟩
  · exact ⟨hn, by simp [hl]⟩
  · exact ⟨hn, by simp [hl, Console.afterFreeByte]⟩
  · simp only [Console.notReadyNext, hn, runOver, decide_eq_false_iff_not] at ho
    exact ⟨hn, by simp; omega⟩
  · simp only [Console.notReadyNext, hn, runOver, decide_eq_false_iff_not] at ho
    exact ⟨hn, by simp [Console.afterFreeByte]; omega⟩

/-- A run of free bytes that ends allows only so many reads of a non-zero byte. -/
theorem Console.charRun_left {n : Nat} {c c' : Console} {b : Byte} (hn : Config.freeCharRun c.charRun = some n)
    (hk : c.keyAvailable.1 = true) (hr : c.keyAvailable.2.readChar = some (b, c')) (hb : b ≠ 0x00#8) :
    Config.freeCharRun c'.charRun = some n ∧
    c'.charAnswers.length + (n - c'.charDone) < c.charAnswers.length + (n - c.charDone) := by
  have key : ∀ d : Console, d.charAnswers = c.charAnswers → d.charRun = c.charRun → d.charDone = c.charDone →
      d.readChar = some (b, c') → Config.freeCharRun c'.charRun = some n ∧
      c'.charAnswers.length + (n - c'.charDone) < c.charAnswers.length + (n - c.charDone) := by
    intro d h1 h2 h3 hr
    rcases Console.readChar_cases hr with ⟨cs, hl, rfl⟩ | ⟨hl, -, rfl, rfl⟩
    · exact ⟨by rw [h2]; exact hn, by simp [← h1, hl, h3]⟩
    · have hz : d.zeroByteNext = false := by
        cases hz : d.zeroByteNext
        · rfl
        · exact absurd (Console.freeByte_eq_zero.2 hz) hb
      have hz' := hz
      simp only [Console.zeroByteNext, h2, h3, hn, runOver, decide_eq_false_iff_not] at hz'
      simp only [Console.afterFreeByte, hz, h1, h2, h3, hn, true_and, Bool.false_eq_true, if_false]
      omega
  rcases Console.keyAvailable_true hk with ⟨rest, -, e⟩ | ⟨-, -, e⟩ <;> rw [e] at hr <;>
    exact key _ (by rfl) (by rfl) (by rfl) hr

/-! ### A loop that never ends -/

/-- Nothing that can still happen gives a stop word, once the scripted answers are used up: input does not end, the free
polls stay ready, the free bytes stay non-zero, and every cell outside the keyboard cells is non-zero. -/
structure NoStopToCome (s : State) : Prop where
  ended : s.console.ended = false
  keys : Config.freeKeyRun s.console.keyRun = none
  chars : Config.freeCharRun s.console.charRun = none
  cells : ∀ z, z ≠ Config.kbsrAddr → z ≠ Config.kbdrAddr → peek z s ≠ 0x0000#16

/-- How many scripted answers are left. -/
def Console.scripted (c : Console) : Nat := c.keyAnswers.length + c.charAnswers.length

/-- A refresh that does not stop the loop keeps `NoStopToCome`, and uses up a scripted answer where one is left. -/
theorem NoStopToCome.refresh {s : State} (h : NoStopToCome s)
    (hne : peek Config.kbsrAddr (kbsrRefresh s) ≠ 0x0000#16) :
    NoStopToCome (kbsrRefresh s) ∧
    ((kbsrRefresh s).console.scripted < s.console.scripted ∨
      (s.console.scripted = 0 ∧ (kbsrRefresh s).console.scripted = 0)) := by
  obtain ⟨b, c, hk, hr, hc, -⟩ := kbsrRefresh_of_ne hne
  have key : (c.ended = false ∧ c.keyRun = s.console.keyRun ∧ Config.freeCharRun c.charRun = none) ∧
      (c.scripted < s.console.scripted ∨ (s.console.scripted = 0 ∧ c.scripted = 0)) := by
    have hz : ∀ d : Console, d.charRun = s.console.charRun → d.zeroByteNext = false := by
      intro d hd; rw [Console.zeroByteNext, hd, h.chars]; rfl
    rcases Console.keyAvailable_true hk with ⟨rest, hl, e⟩ | ⟨hl, -, e⟩ <;> rw [e] at hr <;>
      rcases Console.readChar_cases hr with ⟨cs, hl', rfl⟩ | ⟨hl', -, -, rfl⟩
    · simp at hl'
      exact ⟨⟨h.ended, rfl, h.chars⟩, .inl (by simp [Console.scripted, hl, hl']; omega)⟩
    · simp at hl'
      refine ⟨⟨h.ended, rfl, ?_⟩, .inl (by simp [Console.scripted, Console.afterFreeByte, hl, hl'])⟩
      simp only [Console.afterFreeByte]; rw [hz _ (by rfl)]; exact h.chars
    · simp at hl'
      exact ⟨⟨h.ended, rfl, h.chars⟩, .inl (by simp [Console.scripted, hl, hl'])⟩
    · simp at hl'
      refine ⟨⟨h.ended, rfl, ?_⟩, .inr (by simp [Console.scripted, Console.afterFreeByte, hl, hl'])⟩
      simp only [Console.afterFreeByte]; rw [hz _ (by rfl)]; exact h.chars
  refine ⟨⟨by rw [hc]; exact key.1.1, by rw [hc, key.1.2.1]; exact h.keys, by rw [hc]; exact key.1.2.2,
    fun z h1 h2 => by rw [kbsrRefresh_peek s h1 h2]; exact h.cells z h1 h2⟩, by rw [hc]; exact key.2⟩

theorem NoStopToCome.writeChars {s : State} (h : NoStopToCome s) (bs : List Byte) : NoStopToCome (writeChars bs s) :=
  ⟨h.ended, h.keys, h.chars, h.cells⟩

/-- With no scripted answer left, a refresh neither stops the loop nor leaves a zero in KBDR. -/
theorem NoStopToCome.refresh_cells {s : State} (h : NoStopToCome s) (h0 : s.console.scripted = 0) :
    peek Config.kbsrAddr (kbsrRefresh s) ≠ 0x0000#16 ∧ peek Config.kbdrAddr (kbsrRefresh s) ≠ 0x0000#16 := by
  obtain ⟨hk0, hc0⟩ : s.console.keyAnswers = [] ∧ s.console.charAnswers = [] := by
    simp only [Console.scripted, Nat.add_eq_zero_iff, List.length_eq_zero_iff] at h0; exact h0
  have hn : s.console.notReadyNext = false := by rw [Console.notReadyNext, h.keys]; rfl
  have hd : s.console.drawKey = (true, s.console.afterFreeKey) := by
    unfold Console.drawKey; rw [hk0]; simp [hn]
  have hr : s.console.afterFreeKey.readChar =
      some (s.console.afterFreeKey.freeByte, s.console.afterFreeKey.afterFreeByte) := by
    have e1 : s.console.afterFreeKey.charAnswers = [] := hc0
    have e2 : s.console.afterFreeKey.ended = false := h.ended
    unfold Console.readChar; rw [e1]; simp [e2]
  have hb : s.console.afterFreeKey.freeByte ≠ 0x00#8 := by
    rw [Ne, Console.freeByte_eq_zero, Console.zeroByteNext]
    have : s.console.afterFreeKey.charRun = s.console.charRun := rfl
    rw [this, h.chars]; simp [runOver]
  rcases kbsrRefresh_cases s with ⟨b, c, -, h2, e⟩ | ⟨h1, -⟩
  · simp only [Console.keyAvailable, hd, hr, Option.some.injEq, Prod.mk.injEq] at h2
    obtain ⟨rfl, -⟩ := h2
    rw [e]
    refine ⟨?_, ?_⟩
    · simp only [peek_setConsole, peek_poke]
      rw [if_neg (by decide), if_pos trivial]; decide
    · simp only [peek_setConsole, peek_poke, if_true]
      rw [Ne, zext16_eq_zero]; exact hb
  · simp [Console.keyAvailable, hd, hr] at h1

/-- With no stop to come, no scripted answer left and no zero in KBDR ahead of the next refresh, the loop never ends. -/
theorem StopsAtZeroOnly.never_ends (hw : StopsAtZeroOnly word) (n : Nat) (a : Word) (s : State) (h : NoStopToCome s)
    (h0 : s.console.scripted = 0)
    (hd : a = 0xFE01#16 ∨ a = 0xFE02#16 → peek Config.kbdrAddr s ≠ 0x0000#16) : stringLoop word n a s = none := by
  induction n generalizing a s with
  | zero => rfl
  | succ n ih =>
    by_cases ha : a = Config.kbsrAddr
    · subst ha
      obtain ⟨h1, h2⟩ := h.refresh_cells h0
      obtain ⟨h3, h4⟩ := h.refresh h1
      rcases hw.turn n Config.kbsrAddr s with ⟨hz, -⟩ | ⟨-, bs, e⟩
      · exact absurd hz (by rw [afterRead_kbsr]; exact h1)
      · rw [e, afterRead_kbsr]
        exact ih _ _ (h3.writeChars bs) (by rw [writeChars_console]; omega) (fun _ => h2)
    · rcases hw.turn n a s with ⟨hz, -⟩ | ⟨-, bs, e⟩
      · rw [afterRead_of_ne _ ha] at hz
        by_cases hb : a = Config.kbdrAddr
        · subst hb; exact absurd hz (hd (.inr rfl))
        · exact absurd hz (h.cells a ha hb)
      · rw [e, afterRead_of_ne _ ha]
        refine ih _ _ (h.writeChars bs) h0 (fun hn => hd ?_)
        rcases hn with hn | hn
        · exact absurd (by bv_omega) (show ¬ a = 0xFE00#16 from ha)
        · exact .inl (by bv_omega)

/-- With no stop to come, a loop that has passed every scripted answer and one more string without a stop never ends. -/
theorem StopsAtZeroOnly.none_of_none (hw : StopsAtZeroOnly word) (N : Nat) (a : Word) (s : State) (h : NoStopToCome s)
    (hN : (Config.kbsrAddr - a).toNat + 3 + 65536 * s.console.scripted ≤ N) (e : stringLoop word N a s = none)
    (n : Nat) : stringLoop word n a s = none := by
  induction N generalizing a s n with
  | zero => omega
  | succ N ih =>
    by_cases h0 : s.console.scripted = 0
    · refine hw.never_ends n a s h h0 fun ha hz => ?_
      obtain ⟨m, hm⟩ : ∃ m, N + 1 = m + 2 := ⟨N - 1, by omega⟩
      obtain ⟨t, ht⟩ := hw.ends_at_kbdr ha m s hz
      rw [hm, ht] at e; cases e
    · cases n with
      | zero => rfl
      | succ n =>
        rw [stringLoop_succ, memRead_fst, memRead_snd] at e ⊢
        split at e
        · next hgo =>
          rw [if_pos hgo]
          have hne := (hw _).1 hgo
          by_cases ha : Config.kbsrAddr = a
          · subst ha
            rw [afterRead_kbsr] at hne e ⊢
            obtain ⟨h1, h2⟩ := h.refresh hne
            have : (Config.kbsrAddr - (Config.kbsrAddr + 1#16)).toNat = 65535 := by decide
            exact ih _ _ (h1.writeChars _) (by rw [writeChars_console]; omega) e n
          · rw [afterRead_of_ne _ (Ne.symm ha)] at e ⊢
            have := toNat_sub_succ ha
            exact ih _ _ (h.writeChars _) (by rw [writeChars_console]; omega) e n
        · cases e

/-- The bound is exact: a loop that stops at 0x0000 alone and finds no stop word within `stringBound` finds none. -/
theorem stringBound_exact (hw : StopsAtZeroOnly word) {a : Word} {s : State}
    (e : stringLoop word (stringBound s) a s = none) (n : Nat) : stringLoop word n a s = none := by
  have dist : ∀ z : Word, (z - a).toNat < 65536 := fun z => (z - a).isLt
  have ne : ¬ ∃ t, stringLoop word (stringBound s) a s = some t := by rintro ⟨t, ht⟩; rw [ht] at e; cases e
  have hk := dist Config.kbsrAddr
  refine hw.none_of_none (stringBound s) a s ⟨?_, ?_, ?_, fun z h1 h2 h0 => ne ?_⟩ ?_ e n
  · cases he : s.console.ended
    · rfl
    · refine absurd (hw.ends_by_console (P := fun c => c.ended = true) (left := fun c => c.charAnswers.length)
        (fun c b c' hP hk hr _ => Console.ended_left hP hk hr) _ a s he ?_) ne
      simp only [stringBound]; omega
  · cases hn : Config.freeKeyRun s.console.keyRun with
    | none => rfl
    | some k =>
      refine absurd (hw.ends_by_console (P := fun c => Config.freeKeyRun c.keyRun = some k)
        (left := fun c => c.keyAnswers.length + (k - c.keyDone))
        (fun c b c' hP hk hr _ => Console.keyRun_left hP hk hr) _ a s hn ?_) ne
      simp only [stringBound, hn, Option.getD_some]; omega
  · cases hn : Config.freeCharRun s.console.charRun with
    | none => rfl
    | some k =>
      refine absurd (hw.ends_by_console (P := fun c => Config.freeCharRun c.charRun = some k)
        (left := fun c => c.charAnswers.length + (k - c.charDone))
        (fun c b c' hP hk hr hb => Console.charRun_left hP hk hr hb) _ a s hn ?_) ne
      simp only [stringBound, hn, Option.getD_some]; omega
  · have := dist z
    exact hw.ends_at_zero h1 h2 _ a s h0 (by simp only [stringBound]; omega)
  · simp only [stringBound, Console.scripted]; omega

end Sys2Proof.Machine
end

