-- ==== Sys2Proof/Tests/Slice0.lean ====
section
/-! SUPPORT. The model's own tests. Expected values come from spec/95_test_vectors.md (ids V-…) and from the examples of
the rules named; the `witness_…` theorems show that the hypotheses of an obligation can be met together. -/

namespace Sys2Proof.Tests

open Sys2Proof.Machine

/-! ### Helpers -/

/-- One value of the next state, when there is one. -/
def field {α : Type} (f : State → α) : Host.Outcome State Fault Refusal → Option α
  | .next t => some (f t)
  | .fault _ => none
  | .refused _ => none

/-- The machine at `pc` with some cells stored and registers R1, R2 set. -/
def start (pc : Word) (cells : List (Word × Word)) (r1 r2 : Word) : State :=
  cells.foldl (fun s c => poke c.1 c.2 s) (writeReg .r1 r1 (writeReg .r2 r2 (setPc pc State.reset)))

/-- A console that answers the key polls and the character reads listed, and nothing more. -/
def typed (keys : List Bool) (chars : List Byte) : Console := ⟨keys, chars, true, 0, 0, 0, 0⟩

/-! ### WellFormed: each check refuses an ill-formed term -/

theorem test_wf_refuses_service_vectors :
    (Instr.trapOther 0x20#8).wf = false ∧ (Instr.trapOther 0x21#8).wf = false ∧ (Instr.trapOther 0x22#8).wf = false ∧
    (Instr.trapOther 0x23#8).wf = false ∧ (Instr.trapOther 0x24#8).wf = false ∧ (Instr.trapOther 0x25#8).wf = false := by
  decide

theorem test_wf_accepts_other_vectors :
    (Instr.trapOther 0x1F#8).wf = true ∧ (Instr.trapOther 0x26#8).wf = true := by decide

/-! ### Decode: every constructor, words written out from the formats of R86 to R96 -/

theorem test_decode_br : decodeWord 0b0000010111111110#16 = .br 0b010#3 0b111111110#9 := by decide
theorem test_decode_addReg : decodeWord 0b0001011001000010#16 = .addReg .r3 .r1 .r2 := by decide
theorem test_decode_addImm : decodeWord 0b0001000000111101#16 = .addImm .r0 .r0 0b11101#5 := by decide
theorem test_decode_ld : decodeWord 0b0010001000000010#16 = .ld .r1 2#9 := by decide
theorem test_decode_st : decodeWord 0b0011001000000011#16 = .st .r1 3#9 := by decide
theorem test_decode_jsr : decodeWord 0b0100100000001010#16 = .jsr 10#11 := by decide
theorem test_decode_jsrr : decodeWord 0b0100000011000000#16 = .jsrr .r3 := by decide
theorem test_decode_andReg : decodeWord 0b0101010010000011#16 = .andReg .r2 .r2 .r3 := by decide
theorem test_decode_andImm : decodeWord 0b0101001001110000#16 = .andImm .r1 .r1 0b10000#5 := by decide
theorem test_decode_ldr : decodeWord 0b0110011010111111#16 = .ldr .r3 .r2 0b111111#6 := by decide
theorem test_decode_str : decodeWord 0b0111100101011111#16 = .str .r4 .r5 31#6 := by decide
theorem test_decode_rti : decodeWord 0b1000000000000000#16 = .rti := by decide
theorem test_decode_not : decodeWord 0b1001100101111111#16 = .not .r4 .r5 := by decide
theorem test_decode_ldi : decodeWord 0b1010010000000001#16 = .ldi .r2 1#9 := by decide
theorem test_decode_sti : decodeWord 0b1011001111111110#16 = .sti .r1 0b111111110#9 := by decide
theorem test_decode_jmp : decodeWord 0b1100000111000000#16 = .jmp .r7 := by decide
theorem test_decode_res : decodeWord 0b1101111111111111#16 = .res := by decide
theorem test_decode_lea : decodeWord 0b1110100100000000#16 = .lea .r4 0b100000000#9 := by decide
theorem test_decode_getc : decodeWord 0b1111000000100000#16 = .trapGetc := by decide
theorem test_decode_out : decodeWord 0b1111000000100001#16 = .trapOut := by decide
theorem test_decode_puts : decodeWord 0b1111000000100010#16 = .trapPuts := by decide
theorem test_decode_in : decodeWord 0b1111000000100011#16 = .trapIn := by decide
theorem test_decode_putsp : decodeWord 0b1111000000100100#16 = .trapPutsp := by decide
theorem test_decode_halt_ignores_bits : decodeWord 0b1111010100100101#16 = .trapHalt := by decide
theorem test_decode_other : decodeWord 0b1111000000100110#16 = .trapOther 0x26#8 := by decide

theorem test_decodeTableWord :
    decodeTableWord 16 0x1642 = some (.addReg .r3 .r1 .r2) ∧ decodeTableWord 32 0x1642 = none := by decide

theorem test_decode_refuses_no_word : (match decode [] with | .error e => e == .noWord | .ok _ => false) = true := by
  decide

/-! ### Sign extension and flags (V-SRC-1, V-SRC-2) -/

theorem test_sext :
    sext 0x1F#5 = 0xFFFF#16 ∧ sext 0x10#5 = 0xFFF0#16 ∧ sext 0x0F#5 = 0x000F#16 ∧ sext 0x20#6 = 0xFFE0#16 ∧
    sext 0x100#9 = 0xFF00#16 ∧ sext 0x400#11 = 0xFC00#16 ∧ sext 0x3FF#11 = 0x03FF#16 := by decide

theorem test_condOf :
    condOf 0x0000#16 = 2#3 ∧ condOf 0x0001#16 = 1#3 ∧ condOf 0x7FFF#16 = 1#3 ∧ condOf 0x8000#16 = 4#3 ∧
    condOf 0xFFFF#16 = 4#3 := by decide

/-! ### One step per vector of spec/95_test_vectors.md -/

/-- V-ADD-1 -/
theorem test_add_overflow :
    field (fun t => (readReg .r3 t, t.cond, t.pc)) (step (start 0x3000 [(0x3000, 0x1642)] 0x7FFF 0x0001)) =
      some (0x8000, 4, 0x3001) := by decide

/-- V-ADD-10: bits [4:3] ignored -/
theorem test_add_ignored_bits :
    field (fun t => (readReg .r3 t, t.cond)) (step (start 0x3000 [(0x3000, 0x165A)] 5 6)) = some (0x000B, 1) := by
  decide

/-- V-ADD-6 -/
theorem test_add_imm :
    field (fun t => (readReg .r0 t, t.cond)) (step (start 0x3000 [(0x3000, 0x1030)] 0 0)) = some (0xFFF0, 4) := by
  decide

/-- V-SRC-3 -/
theorem test_and_reg :
    field (fun t => (readReg .r3 t, t.cond)) (step (start 0x3000 [(0x3000, 0x5642)] 0x00F6 0x000C)) =
      some (0x0004, 1) := by decide

/-- V-AND-4 -/
theorem test_and_imm :
    field (fun t => (readReg .r1 t, t.cond)) (step (start 0x3000 [(0x3000, 0x5270)] 0x123F 0)) =
      some (0x1230, 1) := by decide

/-- V-NOT-4 -/
theorem test_not :
    field (fun t => (readReg .r1 t, t.cond)) (step (start 0x3000 [(0x3000, 0x927F)] 0x8000 0)) =
      some (0x7FFF, 1) := by decide

/-- V-LEA-2: LEA sets the flags -/
theorem test_lea_flags :
    field (fun t => (readReg .r1 t, t.cond, t.pc)) (step (start 0xC000 [(0xC000, 0xE200)] 0 0)) =
      some (0xC001, 4, 0xC001) := by decide

/-- V-LEA-3: the sum wraps -/
theorem test_lea_wraps :
    field (fun t => (readReg .r2 t, t.cond)) (step (start 0xFFFE [(0xFFFE, 0xE401)] 0 0)) = some (0x0000, 2) := by
  decide

/-- V-BR-2 -/
theorem test_br_backward :
    field (fun t => t.pc) (step (setcc 0 (start 0x3002 [(0x3002, 0x05FE)] 0 0))) = some 0x3001 := by decide

/-- R162: the whole table of masks and flags -/
theorem test_br_table : ∀ nzp : BitVec 3,
    field (fun t => t.pc) (exec (.br nzp 16#9) { State.reset with pc := 0x3001, cond := 0 }) = some 0x3001 ∧
    field (fun t => t.pc) (exec (.br nzp 16#9) { State.reset with pc := 0x3001, cond := 1 }) =
      some (if nzp.getLsbD 0 then 0x3011 else 0x3001) ∧
    field (fun t => t.pc) (exec (.br nzp 16#9) { State.reset with pc := 0x3001, cond := 2 }) =
      some (if nzp.getLsbD 1 then 0x3011 else 0x3001) ∧
    field (fun t => t.pc) (exec (.br nzp 16#9) { State.reset with pc := 0x3001, cond := 4 }) =
      some (if nzp.getLsbD 2 then 0x3011 else 0x3001) := by decide

/-- V-JMP-3: ignored bits all 1 -/
theorem test_jmp :
    field (fun t => t.pc) (step (start 0x3000 [(0x3000, 0xCEBF)] 0 0x4000)) = some 0x4000 := by decide

/-- V-JSR-3: the post-fetch PC wraps -/
theorem test_jsr :
    field (fun t => (readReg .r7 t, t.pc)) (step (start 0xFFFF [(0xFFFF, 0x4BFF)] 0 0)) = some (0x0000, 0x03FF) := by
  decide

/-- V-JSRR-2: JSRR R7 goes on at the next instruction -/
theorem test_jsrr_r7 :
    field (fun t => (readReg .r7 t, t.pc)) (step (writeReg .r7 0x5000 (start 0x3000 [(0x3000, 0x41C0)] 0 0))) =
      some (0x3001, 0x3001) := by decide

/-- R166: JSRR R2 (word 0x4080) goes to the value of R2 -/
theorem test_jsrr :
    field (fun t => (readReg .r7 t, t.pc)) (step (start 0x3000 [(0x3000, 0x4080)] 0 0x5000)) =
      some (0x3001, 0x5000) := by decide

/-- V-LD-3: the address wraps below 0 -/
theorem test_ld :
    field (fun t => (readReg .r2 t, t.cond)) (step (start 0x0000 [(0x0000, 0x2500), (0xFF01, 0x0042)] 0 0)) =
      some (0x0042, 1) := by decide

/-- V-LDI-1 -/
theorem test_ldi :
    field (fun t => (readReg .r2 t, t.cond))
      (step (start 0x3000 [(0x3000, 0xA401), (0x3002, 0x4000), (0x4000, 0xFFFF)] 0 0)) = some (0xFFFF, 4) := by decide

/-- V-LDI-3: the second read is of KBSR, with a key -/
theorem test_ldi_kbsr :
    field (fun t => (readReg .r1 t, t.cond, peek 0xFE00 t, peek 0xFE02 t))
      (step (setConsole (typed [true] [0x6B]) (start 0x3000 [(0x3000, 0xA201), (0x3002, 0xFE00)] 0 0))) =
      some (0x8000, 4, 0x8000, 0x006B) := by decide

/-- V-LDR-2: DR = BaseR, largest offset -/
theorem test_ldr :
    field (fun t => (readReg .r2 t, t.cond)) (step (start 0x3000 [(0x3000, 0x649F), (0x401F, 0x7777)] 0 0x4000)) =
      some (0x7777, 1) := by decide

/-- V-LDR-3: base plus offset wraps -/
theorem test_ldr_wraps :
    field (fun t => readReg .r0 t) (step (start 0x3000 [(0x3000, 0x6041), (0x0000, 0x0009)] 0xFFFF 0)) =
      some 0x0009 := by decide

/-- V-ST-2: a store to its own address -/
theorem test_st :
    field (fun t => (peek 0x3000 t, t.cond, t.pc)) (step (start 0x3000 [(0x3000, 0x33FF)] 0xBEEF 0)) =
      some (0xBEEF, 0, 0x3001) := by decide

/-- V-STI-1 -/
theorem test_sti :
    field (fun t => (peek 0x4000 t, t.pc)) (step (start 0x3005 [(0x3005, 0xB3FE), (0x3004, 0x4000)] 0x1234 0)) =
      some (0x1234, 0x3006) := by decide

/-- V-STI-2: a plain write to KBSR calls no console operation -/
theorem test_sti_kbsr :
    field (fun t => (peek 0xFE00 t, t.console == typed [true] [0x6B]))
      (step (setConsole (typed [true] [0x6B]) (start 0x3000 [(0x3000, 0xB201), (0x3002, 0xFE00)] 0x1234 0))) =
      some (0x1234, true) := by decide

/-- R185 with offset −32: STR R2, R2 (word 0x74A0) stores its own base -/
theorem test_str :
    field (fun t => peek 0x3FE0 t) (step (start 0x3000 [(0x3000, 0x74A0)] 0 0x4000)) = some 0x4000 := by decide

/-- V-TRAP-GETC-1: R0's high byte cleared, flags kept, no echo -/
theorem test_getc :
    field (fun t => (readReg .r0 t, t.cond, t.out, readReg .r7 t))
      (step (setcc 0x8000 (writeReg .r0 0xFFFF (setConsole (typed [] [0x41]) (start 0x3000 [(0x3000, 0xF020)] 0 0))))) =
      some (0x0041, 4, [], 0x3001) := by decide

/-- V-TRAP-OUT-1 -/
theorem test_out :
    field (fun t => (t.out, readReg .r0 t)) (step (writeReg .r0 0x1241 (start 0x3000 [(0x3000, 0xF021)] 0 0))) =
      some ([0x41], 0x1241) := by decide

/-- V-TRAP-PUTS-2: low bytes only, the stop test on the whole word -/
theorem test_puts :
    field (fun t => (t.out, readReg .r0 t)) (step (writeReg .r0 0x4000
      (start 0x3000 [(0x3000, 0xF022), (0x4000, 0x4148), (0x4001, 0x0100)] 0 0))) =
      some ([0x48, 0x00], 0x4000) := by decide +kernel

/-- V-TRAP-PUTS-4: the address wraps -/
theorem test_puts_wraps :
    field (fun t => t.out) (step (writeReg .r0 0xFFFF
      (start 0x3000 [(0x3000, 0xF022), (0xFFFF, 0x0041), (0x0000, 0x0042)] 0 0))) = some [0x41, 0x42] := by decide +kernel

/-- V-TRAP-IN-1: the prompt is free, so only R0 and the flags are looked at -/
theorem test_in :
    field (fun t => (readReg .r0 t, t.cond))
      (step (setConsole (typed [] [0x79]) (start 0x3000 [(0x3000, 0xF023)] 0 0))) = some (0x0079, 0) := by decide

/-- V-TRAP-PUTSP-1 -/
theorem test_putsp :
    field (fun t => t.out) (step (writeReg .r0 0x4000
      (start 0x3000 [(0x3000, 0xF024), (0x4000, 0x6948), (0x4001, 0x0021)] 0 0))) =
      some [0x48, 0x69, 0x21] := by decide +kernel

/-- V-TRAP-PUTSP-2, in the three modes of D10 -/
theorem test_putsp_modes :
    let s := start 0x3000 [(0x4000, 0x6948)] 0 0
    (stringLoop (putspWord .lowThenTestHigh) 3 0x4000 s).map (fun t => t.out) = some [0x48, 0x69, 0x00] ∧
    (stringLoop (putspWord .stopBeforeWord) 3 0x4000 s).map (fun t => t.out) = some [0x48, 0x69] ∧
    (stringLoop (putspWord .zeroWordOnly) 3 0x4000 s).map (fun t => t.out) = some [0x48, 0x69] := by decide

/-- V-TRAP-HALT-1 -/
theorem test_halt :
    field (fun t => (t.run, readReg .r7 t, t.pc, t.out)) (step (start 0x3002 [(0x3002, 0xF025)] 0 0)) =
      some (.halted, 0x3003, 0x3003, []) := by decide

/-- V-TRAP-BAD-1 -/
theorem test_bad_vector :
    field (fun t => (t.run, readReg .r7 t, t.pc)) (step (start 0x3000 [(0x3000, 0xF026)] 0 0)) =
      some (.fatal (.invalidTrapVector 0x26), 0x3001, 0x3001) := by decide

/-- V-FD-1 -/
theorem test_rti :
    field (fun t => (t.run, t.pc, readReg .r7 t)) (step (start 0x3000 [(0x3000, 0x8000)] 0 0)) =
      some (.fatal (.invalidOpcode 8), 0x3001, 0) := by decide

/-- V-FD-2 -/
theorem test_res :
    field (fun t => (t.run, t.pc)) (step (start 0x3000 [(0x3000, 0xDFFF)] 0 0)) =
      some (.fatal (.invalidOpcode 13), 0x3001) := by decide

/-- V-FD-4 and V-FD-5: a fetch at KBSR, with and without a key -/
theorem test_fetch_kbsr :
    field (fun t => (t.run, t.pc, peek 0xFE02 t)) (step (setConsole (typed [true] [0x41]) (start 0xFE00 [] 0 0))) =
      some (.fatal (.invalidOpcode 8), 0xFE01, 0x0041) ∧
    field (fun t => (t.run, t.pc)) (step (setConsole (typed [false] [0x41]) (start 0xFE00 [(0xFE00, 0x1234)] 0 0))) =
      some (.running, 0xFE01) := by decide

/-- V-FD-7 -/
theorem test_stopped :
    field (fun t => t.pc) (step { State.reset with run := .halted }) = none ∧
    field (fun t => t.pc) (step { State.reset with run := .fatal (.invalidOpcode 8) }) = none := by decide

/-- R236: no character ever comes -/
theorem test_getc_hangs :
    (match step (setConsole (typed [] []) (start 0x3000 [(0x3000, 0xF020)] 0 0)) with
      | .fault f => f == .inputNeverArrives
      | .next _ => false
      | .refused _ => false) = true := by decide

/-- V-SRC-4: loading at 0xFFFF does not wrap -/
theorem test_load_image :
    State.boot 0xFFFF [0x1111, 0x2222] = { State.reset with mem := [(0xFFFF, 0x1111)] } := by decide

/-- R30, R250: the values of reset -/
theorem test_reset :
    State.reset.pc = 0x3000 ∧ State.reset.cond = 0 ∧ State.reset.run = .running ∧ State.reset.mem = [] ∧
    State.reset.out = [] := by decide

theorem test_write_unlisted_value_removes :
    Memory.write (Memory.write [] 5 7) 5 0 = [] ∧ Memory.write [(3, 1), (9, 2)] 5 7 = [(3, 1), (5, 7), (9, 2)] := by
  decide

/-! ### Witnesses: the hypotheses of the obligations can be met -/

theorem witness_SignExtensionFollowsTheFieldsTopBit :
    (1 ≤ 1 ∧ (0#1).getLsbD 0 = false ∧ (1#1).getLsbD 0 = true) ∧
    (16 ≤ 16 ∧ (0x7FFF#16).getLsbD 15 = false ∧ (0x8000#16).getLsbD 15 = true) := by decide

theorem witness_DecodeInvertsEncode : (Instr.trapOther 0xFF#8).wf = true ∧ (Instr.br 7#3 0x1FF#9).wf = true := by decide

theorem witness_OnlyIgnoredBitsDoNotMatter :
    (0x165A#16 &&& (decodeWord 0x1642).usedBits) = (0x1642#16 &&& (decodeWord 0x1642).usedBits) := by decide

theorem witness_FatalWordsAreExactlyTheListedOnes :
    State.reset.run = .running ∧ fatalReasonOf 0x8000 = some (.invalidOpcode 8) ∧
    fatalReasonOf 0xDFFF = some (.invalidOpcode 13) ∧ fatalReasonOf 0xF01F = some (.invalidTrapVector 0x1F) ∧
    fatalReasonOf 0xF026 = some (.invalidTrapVector 0x26) ∧ fatalReasonOf 0xF020 = none ∧
    fatalReasonOf 0xF025 = none ∧ fatalReasonOf 0x7FFF = none ∧ (∃ t, exec (decodeWord 0x7FFF) State.reset = .next t) :=
  ⟨by decide, by decide, by decide, by decide, by decide, by decide, by decide, by decide, ⟨_, rfl⟩⟩

theorem witness_CondIsWrittenOnlyByFlagSetters :
    (∃ t, exec (.st .r1 0) State.reset = .next t ∧ flagDest (.st .r1 0) = none) ∧
    (∃ t, exec (.not .r1 .r2) State.reset = .next t ∧ flagDest (.not .r1 .r2) = some .r1) :=
  ⟨⟨_, rfl, rfl⟩, ⟨_, rfl, rfl⟩⟩

theorem witness_OneFlagHoldsFromTheFirstFlagSetterOn :
    (∃ t, step (setcc 1 State.reset) = .next t ∧ oneFlag (setcc 1 State.reset).cond = true) ∧
    (∃ t, step (start 0x3000 [(0x3000, 0x1025)] 0 0) = .next t ∧
      (flagDest (decodeWord (fetch (start 0x3000 [(0x3000, 0x1025)] 0 0)).1)).isSome = true) :=
  ⟨⟨_, rfl, by decide⟩, ⟨_, rfl, by decide⟩⟩

/-- Meets the one hypothesis of RegistersAreWrittenOnlyAsListed, PcAdvancesAsTheTableSays,
OutputOnlyGrowsAndOnlyByTheServices (both clauses) and OutputServicesKeepRegistersAndMemory. -/
theorem witness_exec_answers_next :
    (∃ t, exec .trapOut State.reset = .next t) ∧ (∃ t, exec (.jsr 1) State.reset = .next t) ∧
    (∃ t, exec .trapHalt State.reset = .next t) :=
  ⟨⟨_, rfl⟩, ⟨_, rfl⟩, ⟨_, rfl⟩⟩

theorem witness_RunEndsOnlyByHaltOrFatalDecode :
    (∃ t, exec .trapHalt State.reset = .next t) ∧ (∃ t, exec .rti State.reset = .next t) ∧
    (∃ t, exec .res State.reset = .next t) ∧ (∃ t, exec (.trapOther 0) State.reset = .next t) ∧
    (∃ t, exec (.addReg .r0 .r0 .r0) State.reset = .next t) :=
  ⟨⟨_, rfl⟩, ⟨_, rfl⟩, ⟨_, rfl⟩, ⟨_, rfl⟩, ⟨_, rfl⟩⟩

theorem witness_AfterKeyAvailableReadCharReturns : (typed [true] [0x41]).keyAvailable.1 = true := by decide

theorem witness_MemoryIsPlainStorageAwayFromKbsrReads :
    (0xFDFF#16) ≠ 0xFE00#16 ∧ (0xFE01#16) ≠ 0xFE00#16 ∧ (0xFFFE#16) ≠ 0xFE00#16 := by decide

theorem witness_KbsrReadRefreshesTheKeyboardCells :
    (typed [true] [0x41]).keyAvailable.1 = true ∧ (typed [false] [0x41]).keyAvailable.1 = false ∧
    (typed [true] []).keyAvailable.1 = false := by decide

theorem witness_StoredKeyboardValuesLastAsSaid :
    (setConsole (typed [false] []) State.reset).console.keyAvailable.1 = false := by decide

theorem witness_MemoryChangesOnlyByStoresAndTheRefresh :
    ∃ t, exec (.st .r1 0) State.reset = .next t ∧ storeAddr (.st .r1 0) State.reset ≠ some 0x3001 ∧
      (0x3001#16) ≠ 0xFE00#16 ∧ (0x3001#16) ≠ 0xFE02#16 := ⟨_, rfl, by decide, by decide, by decide⟩

theorem witness_StoreIsSeenByTheNextFetch :
    (∃ t, exec (.st .r1 0) State.reset = .next t ∧ pcRel (0#9) State.reset ≠ 0xFE00#16) ∧
    (∃ t, exec (.sti .r1 0) State.reset = .next t ∧ (indirect 0 State.reset).1 ≠ 0xFE00#16) ∧
    (∃ t, exec (.str .r1 .r2 0) State.reset = .next t ∧ baseOff .r2 0 State.reset ≠ 0xFE00#16) :=
  ⟨⟨_, rfl, by decide⟩, ⟨_, rfl, by decide⟩, ⟨_, rfl, by decide⟩⟩

theorem witness_LoadImageCopiesWordsWithoutWrapping :
    (0xFFFF ≤ 0xFFFF ∧ [0x1111#16, 0x2222#16][0]? = some 0x1111#16 ∧ 0xFFFF = 0xFFFF + 0) ∧ 0xFFFE < 0xFFFF ∧
    0x3000 + [0x1111#16].length ≤ 0x3001 := by decide

theorem witness_StoragesThatReadAlikeAreEqual :
    Memory.wf [(0, 1), (0xFFFF, 2)] ∧ ¬ Memory.wf [(0, 0)] ∧ ¬ Memory.wf [(2, 1), (1, 1)] ∧ ¬ Memory.wf [(65536, 1)] := by
  decide

theorem witness_StepRunsTheInstructionAtPc :
    State.reset.run = .running ∧ decodeWord (memRead State.reset.pc State.reset).1 = .br 0 0 := by decide

theorem witness_StoppedMachineTakesNoStep : (setRun .halted State.reset).run ≠ .running := by decide

theorem witness_FetchAtKbsrExecutesTheRefreshedValue :
    (setConsole (typed [true] [1]) (start 0xFE00 [] 0 0)).run = .running ∧
    (setConsole (typed [true] [1]) (start 0xFE00 [] 0 0)).pc = 0xFE00 ∧
    (setConsole (typed [true] [1]) (start 0xFE00 [] 0 0)).console.keyAvailable.1 = true ∧
    (setConsole (typed [false] [1]) (start 0xFE00 [] 0 0)).console.keyAvailable.1 = false := by decide

theorem witness_RtiAndResAreFatalWhateverTheirLowBits :
    (0x8FFF#16).toNat / 4096 = 8 ∧ (0xD000#16).toNat / 4096 = 13 := by decide

theorem witness_PlacedWordIsTheNextInstruction :
    65535 < 65536 ∧ (State.reset.withFetchWord 16 0xFFFF).pc = 0x3000 ∧
    (State.withFetchWord (setPc 0xFE00 State.reset) 16 0x1025).pc = 0x3000 := by decide

/-- Meets the hypothesis of the third clause of AddWritesTheWrappingSum and of AndWritesTheBitwiseConjunction. -/
theorem witness_forms_agree :
    (readReg .r2 (start 0x3000 [] 0 0xFFFD)).toInt = (0b11101#5).toInt := by decide

theorem witness_BrIsTakenExactlyOnACommonBit :
    (∃ k, k < 3 ∧ (0b100#3).getLsbD k = true ∧ (setcc 0x8000 State.reset).cond.getLsbD k = true) ∧
    (¬ ∃ k, k < 3 ∧ (0b011#3).getLsbD k = true ∧ (setcc 0x8000 State.reset).cond.getLsbD k = true) := by decide

theorem witness_BrWithoutMaskOrFlagDoesNothing : State.reset.cond = 0#3 := by decide

theorem witness_JsrrLinksBeforeItReadsTheBase : Reg.r3 ≠ .r7 ∧ Reg.r7 = .r7 := by decide

theorem witness_LoadsAwayFromKbsrReadTheStoredWord :
    pcRel (0#9) State.reset ≠ 0xFE00#16 ∧ peek (pcRel (0#9) State.reset) State.reset ≠ 0xFE00#16 ∧
    baseOff .r1 0 State.reset ≠ 0xFE00#16 := by decide

theorem witness_EveryTrapLinksAndGoesOnAfterItself : ∃ t, exec (.trapOther 0x26) State.reset = .next t := ⟨_, rfl⟩

/-- Meets the hypothesis of GetcReceivesOneCharacter and of InPromptsEchoesAndReceives. -/
theorem witness_readChar_returns :
    (setConsole (typed [] [0x41]) State.reset).console.readChar = some (0x41, typed [] []) := by decide

theorem witness_PutsWritesTheLowBytesUpToTheZeroWord :
    let s := writeReg .r0 0xFFFF (start 0x3000 [(0xFFFF, 0x0041)] 0 0)
    (∀ k, k ≤ 1 → stringAddr s k ≠ 0xFE00#16) ∧ (∀ k, k < 1 → peek (stringAddr s k) s ≠ 0x0000#16) ∧
    peek (stringAddr s 1) s = 0x0000#16 := by decide

theorem witness_PutsEndsWhereAStopWordCanBeMet :
    ((0x0000#16) ≠ 0xFE00#16 ∧ (0x0000#16) ≠ 0xFE02#16 ∧ peek 0x0000#16 State.reset = 0x0000#16) ∧
    (setConsole (typed [] []) State.reset).console.ended = true := by decide

/-- At reset R0 points at a stop word (R204, R207). -/
theorem witness_strings_end :
    field (fun t => t.out) (exec .trapPuts State.reset) = some [] ∧
    field (fun t => t.out) (exec .trapPutsp State.reset) = some [0x00] := by decide +kernel

theorem witness_InputServicesHangExactlyWithoutInput :
    ((typed [] []).charAnswers = [] ∧ (typed [] []).ended = true) ∧
    ¬ (State.reset.console.charAnswers = [] ∧ State.reset.console.ended = true) := by decide

theorem witness_PutspWritesBothBytesUpToAZeroHighByte :
    let s := writeReg .r0 0x4000 (start 0x3000 [(0x4000, 0x6948), (0x4001, 0x0021)] 0 0)
    (∀ k, k ≤ 1 → stringAddr s k ≠ 0xFE00#16) ∧ (∀ k, k < 1 → 256 ≤ (peek (stringAddr s k) s).toNat) ∧
    (peek (stringAddr s 1) s).toNat < 256 := by decide

theorem witness_ResetSequenceLeavesTheStatedState :
    ([0x1025#16, 0xF025#16][1]? = some 0xF025#16 ∧ (0x3001#16).toNat = (0x3000#16).toNat + 1) ∧
    (0x2FFF#16).toNat < (0x3000#16).toNat ∧ (0x3000#16).toNat + 2 ≤ (0x3002#16).toNat := by decide

theorem witness_EveryStepKeepsTheInvariant : State.reset.Inv ∧ ∃ t, step State.reset = .next t :=
  ⟨⟨Memory.wf_nil, rfl⟩, ⟨_, rfl⟩⟩

end Sys2Proof.Tests
end

section
/-! PROOFS. The bit-field helpers of 00_scope.md: sign extension (R9), and `lo8` (R10) as OUT uses it (R203). -/

namespace Sys2Proof

/-! ### The fields of a TRAP word, whatever its ignored bits (R95, D6) -/

@[simp] theorem fieldOp_trapFormat (op x : BitVec 4) (v : BitVec 8) : fieldOp (op ++ x ++ v) = op := by
  unfold fieldOp
  ext i hi
  simp only [BitVec.getElem_extractLsb', BitVec.getLsbD_append]
  interval_cases i <;> simp

@[simp] theorem fieldVect8_trapFormat (op x : BitVec 4) (v : BitVec 8) : fieldVect8 (op ++ x ++ v) = v :=
  BitVec.extractLsb'_append_eq_right

/-- A word with opcode 15 decodes by its vector alone: bits [11:8] are ignored (R95, R98, D6). -/
theorem decodeWord_trapFormat (x : BitVec 4) (v : BitVec 8) : decodeWord (0b1111#4 ++ x ++ v) = decodeTrap v := by
  have hop : Opcode.ofBits (fieldOp (0b1111#4 ++ x ++ v)) = .trap := by rw [fieldOp_trapFormat]; rfl
  simp only [decodeWord, hop, fieldVect8_trapFormat]

namespace Machine

/-! ### Sign extension (R9) -/

/-- Where the field's top bit is 0, the bits above the field are 0. -/
theorem sext_of_topBit_false {n : Nat} {v : BitVec n} (h : v.getLsbD (n - 1) = false) :
    sext v = BitVec.ofNat 16 v.toNat := by
  have hmsb : v.msb = false := by rw [BitVec.msb_eq_getLsbD_last, h]
  rw [sext, BitVec.signExtend_eq_setWidth_of_msb_false hmsb, BitVec.ofNat_toNat]

/-- Where the field's top bit is 1, the bits above the field are 1. -/
theorem sext_of_topBit_true {n : Nat} {v : BitVec n} (h : v.getLsbD (n - 1) = true) :
    sext v = BitVec.ofNat 16 v.toNat ||| (0xFFFF#16 <<< n) := by
  have hmsb : v.msb = true := by rw [BitVec.msb_eq_getLsbD_last, h]
  ext i hi
  rw [sext, BitVec.getElem_signExtend, hmsb]
  by_cases hin : i < n
  · simp [hin]
  · have hone : (0xFFFF#16)[i - n] = true := BitVec.getElem_allOnes (i - n) (by omega)
    simp [hin, hone]

/-! ### OUT (R203) -/

/-- `lo8` is the value modulo 256 (R10). -/
theorem lo8_eq_ofNat_mod (w : Word) : lo8 w = BitVec.ofNat 8 (w.toNat % 256) := by
  apply BitVec.eq_of_toNat_eq
  simp [lo8]

/-- The link of R200 writes no general register but R7. -/
theorem saveReturn_regsKeptBut (s : State) : RegsKeptBut [.r7] s (saveReturn s) := by
  intro r hr
  have hne : r ≠ .r7 := by simpa using hr
  simp [hne]

/-- OUT in terms of the state before it: the link does not disturb R0 (R200, R203). -/
theorem exec_trapOut (s : State) :
    exec .trapOut s = .next (writeChar (lo8 (readReg .r0 s)) (saveReturn s)) := by
  have hr0 : readReg .r0 (saveReturn s) = readReg .r0 s := saveReturn_regsKeptBut s .r0 (by decide)
  rw [← hr0]
  rfl

end Machine
end Sys2Proof

open Sys2Proof Sys2Proof.Machine

/-- Settles O1, by the two cases of the field's top bit. -/
theorem signExtensionFollowsTheFieldsTopBit : Obligations.SignExtensionFollowsTheFieldsTopBit :=
  fun _ _ _ _ => ⟨sext_of_topBit_false, sext_of_topBit_true⟩

/-- Settles O46: the state OUT answers is the linked state with one byte written. -/
theorem outWritesTheLowByteOfR0 : Obligations.OutWritesTheLowByteOfR0 := by
  unfold Obligations.OutWritesTheLowByteOfR0
  constructor
  · intro s
    have hout : (writeChar (lo8 (readReg .r0 s)) (saveReturn s)).out =
        s.out ++ [BitVec.ofNat 8 ((readReg .r0 s).toNat % 256)] := by
      simp [lo8_eq_ofNat_mod]
    have hregs : RegsKeptBut [.r7] s (writeChar (lo8 (readReg .r0 s)) (saveReturn s)) :=
      saveReturn_regsKeptBut s
    exact ⟨_, exec_trapOut s, hout, by simp, hregs, rfl, rfl, fun _ => rfl, rfl, rfl⟩
  · intro x
    rw [decodeWord_trapFormat]
    rfl

end

section
/-! PROOFS. The flag computation of 10_state.md by the signed value (R30, R31). -/

namespace Sys2Proof.Machine

/-- Bit 15 is the sign of a Word. -/
theorem bit15_eq_toInt_neg (v : Word) : v.getLsbD 15 = decide (v.toInt < 0) := by
  rw [← BitVec.msb_eq_toInt, BitVec.msb_eq_getLsbD_last]

/-- The bit tests of R31 are the three signs of the value. -/
theorem flagsSay_condOf (v : Word) : FlagsSay v (condOf v) := by
  refine ⟨fun hzero => ?_, fun hneg => ?_, fun hpos => ?_⟩
  · have hv : v = 0x0000#16 := BitVec.eq_of_toInt_eq hzero
    rw [hv, condOf_zero]
    rfl
  · have hbit : v.getLsbD 15 = true := by rw [bit15_eq_toInt_neg, decide_eq_true hneg]
    rw [condOf_negative hbit]
    rfl
  · have hv : v ≠ 0x0000#16 := by
      rintro rfl
      simp at hpos
    have hbit : v.getLsbD 15 = false := by rw [bit15_eq_toInt_neg, decide_eq_false hpos.le.not_gt]
    rw [condOf_positive hv hbit]
    rfl

end Sys2Proof.Machine

open Sys2Proof Sys2Proof.Machine

/-- Settles O8, by the sign of the value. -/
theorem setccWritesTheFlagOfTheValue : Obligations.SetccWritesTheFlagOfTheValue :=
  fun v _ => ⟨flagsSay_condOf v, rfl⟩

end

section
/-! PROOFS. The memory primitives and image loading of 20_memory.md (R55, R56, R60). -/

namespace Sys2Proof.Machine

/-! ### MemRead and MemWrite (R55, R56) -/

/-- MemWrite is a store, device addresses included (R55). -/
theorem stores_memWrite (a v : Word) (s : State) : Stores a v s (memWrite a v s) := by
  have hcell : peek a (poke a v s) = v := by simp
  have hframe : MemKeptBut a s (poke a v s) := by
    intro b hb
    rw [peek_poke, if_neg hb]
  exact ⟨hcell, hframe, fun _ _ => rfl, rfl, rfl, rfl, rfl, rfl⟩

/-- Away from KBSR a read returns the cell and changes nothing (R56). -/
theorem memRead_of_ne {a : Word} (s : State) (h : a ≠ Config.kbsrAddr) : memRead a s = (peek a s, s) := by
  rw [memRead, afterRead_of_ne s h]

/-! ### Image loading (R60) -/

@[simp] theorem Memory.loadImage_nil (m : Memory) (origin : Nat) : Memory.loadImage m origin [] = m := rfl

theorem Memory.loadImage_cons_of_le (m : Memory) {origin : Nat} (h : origin ≤ 0xFFFF) (w : Word) (ws : List Word) :
    Memory.loadImage m origin (w :: ws) = Memory.loadImage (Memory.write m origin w) (origin + 1) ws :=
  if_neg (Nat.not_lt.mpr h)

/-- Past the end of storage nothing is loaded. -/
theorem Memory.loadImage_of_end_lt (m : Memory) {origin : Nat} (h : 0xFFFF < origin) (words : List Word) :
    Memory.loadImage m origin words = m := by
  cases words with
  | nil => rfl
  | cons w ws => exact if_pos h

/-- Loading leaves the cells below the origin alone. -/
theorem Memory.read_loadImage_of_lt (m : Memory) {origin a : Nat} (words : List Word) (h : a < origin) :
    Memory.read (Memory.loadImage m origin words) a = Memory.read m a := by
  induction words generalizing m origin with
  | nil => rfl
  | cons w ws ih =>
    rcases Nat.lt_or_ge 0xFFFF origin with hend | hin
    · rw [Memory.loadImage_of_end_lt m hend]
    · rw [Memory.loadImage_cons_of_le m hin, ih _ (Nat.lt_succ_of_lt h), Memory.read_write, if_neg h.ne]

/-- The cell `k` places from the origin reads as word `k`, and as before where there is no such word. -/
theorem Memory.read_loadImage_add (m : Memory) {origin k : Nat} (words : List Word) (h : origin + k ≤ 0xFFFF) :
    Memory.read (Memory.loadImage m origin words) (origin + k) = words[k]?.getD (Memory.read m (origin + k)) := by
  induction words generalizing m origin k with
  | nil => rfl
  | cons w ws ih =>
    rw [Memory.loadImage_cons_of_le m (by omega)]
    cases k with
    | zero =>
      -- The later words go above the origin, so the first one stays.
      rw [Memory.read_loadImage_of_lt _ ws (by omega)]
      simp
    | succ k =>
      have hnext : origin + (k + 1) = origin + 1 + k := by omega
      have hne : origin + 1 + k ≠ origin := by omega
      rw [hnext, ih _ (by omega), Memory.read_write, if_neg hne, List.getElem?_cons_succ]

end Sys2Proof.Machine

open Sys2Proof Sys2Proof.Machine

/-- Settles O21, by the cell's place: below the origin, at a word of the list, or past its last word. -/
theorem loadImageCopiesWordsWithoutWrapping : Obligations.LoadImageCopiesWordsWithoutWrapping := by
  unfold Obligations.LoadImageCopiesWordsWithoutWrapping
  intro m origin words a ha
  refine ⟨Memory.read_loadImage_of_lt m words, fun k w hw hak => ?_, fun hpast => ?_⟩
  · subst hak
    rw [Memory.read_loadImage_add m words ha, hw, Option.getD_some]
  · obtain ⟨k, rfl⟩ := Nat.exists_eq_add_of_le (Nat.le_of_add_right_le hpast)
    have hnone : words[k]? = none := List.getElem?_eq_none (by omega)
    rw [Memory.read_loadImage_add m words ha, hnone, Option.getD_none]

/-- Settles O16: the read after the write finds the written cell, both being free of side effects there. -/
theorem memoryIsPlainStorageAwayFromKbsrReads : Obligations.MemoryIsPlainStorageAwayFromKbsrReads := by
  unfold Obligations.MemoryIsPlainStorageAwayFromKbsrReads
  intro a v s
  obtain ⟨hcell, hframe⟩ := stores_memWrite a v s
  refine ⟨⟨hcell, hframe⟩, fun hne => ⟨memRead_of_ne s hne, ?_⟩⟩
  rw [memRead_of_ne _ hne, hcell]

end

section
/-! PROOFS. Decoding is total and answers well-formed instructions (30_encoding.md R82). -/

namespace Sys2Proof

/-- A service's vector names the service, and only another vector stays in `trapOther` (R200, R210). -/
theorem decodeTrap_wf (v : BitVec 8) : (decodeTrap v).wf = true := by
  rcases decodeTrap_cases v with ⟨hservice, -⟩ | ⟨hother, heq⟩
  · simp only [isServiceVector, Bool.or_eq_true, beq_iff_eq, or_assoc] at hservice
    rcases hservice with rfl | rfl | rfl | rfl | rfl | rfl <;> rfl
  · simp [heq, Instr.wf, hother]

/-- Every Word decodes to a well-formed instruction: by its opcode, and only a TRAP word's vector has to be looked at. -/
theorem decodeWord_wf (w : Word) : (decodeWord w).wf = true := by
  unfold decodeWord
  cases Opcode.ofBits (fieldOp w) with
  | trap => exact decodeTrap_wf (fieldVect8 w)
  | add | jsr | and => dsimp only; split <;> rfl
  | br | ld | st | ldr | str | rti | not | ldi | sti | jmp | res | lea => rfl

end Sys2Proof

open Sys2Proof

/-- Settles O3: the instruction is the first Word's, whatever Words follow. -/
theorem everyWordDecodesToOneInstruction : Obligations.EveryWordDecodesToOneInstruction :=
  fun w => ⟨decodeWord w, decodeWord_wf w, fun _ => rfl⟩

end

section
/-! PROOFS. The step of a running machine (40_fetch_decode.md R121, R125). -/

namespace Sys2Proof.Machine

/-- A running machine's step is the decoded instruction's, on the state that the fetch leaves (R125). -/
theorem step_of_running {s : State} (h : s.run = .running) : step s = exec (decodeWord (fetch s).1) (fetch s).2 := by
  rw [step, h]

/-- The fetch is a `MemRead` at `pc` and an increment of the `pc` before it, which the read does not touch (R121). -/
theorem fetch_eq_memRead (s : State) :
    fetch s = ((memRead s.pc s).1, setPc (s.pc + 1) (memRead s.pc s).2) := by
  rw [fetch_eq, memRead_fst, memRead_snd]

end Sys2Proof.Machine

open Sys2Proof Sys2Proof.Machine

/-- Settles O23: the fetch reads the Word at `pc` and increments `pc`, and the step runs what that Word decodes to. -/
theorem stepRunsTheInstructionAtPc : Obligations.StepRunsTheInstructionAtPc := by
  unfold Obligations.StepRunsTheInstructionAtPc
  rintro s i hrun rfl
  rw [step_of_running hrun, fetch_eq_memRead]

end

section
/-! PROOFS. ADD, AND, NOT and LEA (41_alu.md R140 to R145): one effect, that of `writeResult`, and the words of their
encoding lines. -/

namespace Sys2Proof

/-! ### Decoding the words of the encoding lines (R86 to R88, R93), ignored bits included (R98, D6) -/

/-- The mode bit, bit 5, is the top one of the six low bits. -/
theorem fieldImmFlag_eq_off6 (w : Word) : fieldImmFlag w = (fieldOff6 w).getLsbD 5 := by
  simp [fieldImmFlag, fieldOff6]

/-- The SR2 field, bits [2:0], is the lower half of the six low bits. -/
theorem fieldReg0_eq_off6 (w : Word) : fieldReg0 w = Reg.ofBits ((fieldOff6 w).extractLsb' 0 3) := by
  simp [fieldReg0, fieldOff6, BitVec.extractLsb'_extractLsb'_of_le]

/-- A word of format ALU-reg with any ignored bits, its six low bits taken together (R86). -/
theorem aluRegFormat_eq_encBaseOff (op : Opcode) (dr sr1 sr2 : Reg) (x : BitVec 2) :
    op.toBits ++ dr.toBits ++ sr1.toBits ++ 0#1 ++ x ++ sr2.toBits =
      encBaseOff op dr sr1 (0#1 ++ x ++ sr2.toBits) := by
  rw [encBaseOff, BitVec.append_assoc, BitVec.append_assoc, BitVec.append_assoc' (x₁ := 0#1)]
  rfl

/-- The six low bits of format ALU-reg hold a clear mode bit. -/
theorem aluRegLow_modeBit (x : BitVec 2) (v : BitVec 3) : (0#1 ++ x ++ v).getLsbD 5 = false := by
  simp only [BitVec.getLsbD_append]
  simp

@[simp] theorem fieldImmFlag_aluRegFormat (op : Opcode) (dr sr1 sr2 : Reg) (x : BitVec 2) :
    fieldImmFlag (encBaseOff op dr sr1 (0#1 ++ x ++ sr2.toBits)) = false := by
  rw [fieldImmFlag_eq_off6, fieldOff6_encBaseOff, aluRegLow_modeBit]

@[simp] theorem fieldReg0_aluRegFormat (op : Opcode) (dr sr1 sr2 : Reg) (x : BitVec 2) :
    fieldReg0 (encBaseOff op dr sr1 (0#1 ++ x ++ sr2.toBits)) = sr2 := by
  rw [fieldReg0_eq_off6, fieldOff6_encBaseOff, BitVec.extractLsb'_append_eq_right, Reg.ofBits_toBits]

theorem decodeWord_addRegFormat (dr sr1 sr2 : Reg) (x : BitVec 2) :
    decodeWord (Opcode.add.toBits ++ dr.toBits ++ sr1.toBits ++ 0#1 ++ x ++ sr2.toBits) = .addReg dr sr1 sr2 := by
  rw [aluRegFormat_eq_encBaseOff]
  simp [decodeWord]

theorem decodeWord_andRegFormat (dr sr1 sr2 : Reg) (x : BitVec 2) :
    decodeWord (Opcode.and.toBits ++ dr.toBits ++ sr1.toBits ++ 0#1 ++ x ++ sr2.toBits) = .andReg dr sr1 sr2 := by
  rw [aluRegFormat_eq_encBaseOff]
  simp [decodeWord]

@[simp] theorem decodeWord_addImm (dr sr1 : Reg) (imm : BitVec 5) :
    decodeWord (encAluImm .add dr sr1 imm) = .addImm dr sr1 imm := by
  simp [decodeWord]

@[simp] theorem decodeWord_andImm (dr sr1 : Reg) (imm : BitVec 5) :
    decodeWord (encAluImm .and dr sr1 imm) = .andImm dr sr1 imm := by
  simp [decodeWord]

/-- The word of NOT has the fields of format base+offset, with the ignored bits [5:0] as the offset (R88). -/
@[simp] theorem decodeWord_not (dr sr : Reg) (x : BitVec 6) : decodeWord (encBaseOff .not dr sr x) = .not dr sr := by
  simp [decodeWord]

@[simp] theorem decodeWord_lea (dr : Reg) (off : BitVec 9) : decodeWord (encPcRel .lea dr off) = .lea dr off := by
  simp [decodeWord]

namespace Machine

/-! ### The one effect of the four instructions (R31) -/

/-- Writing a result to DR and setting the flags from it changes nothing else. -/
theorem writesResult_writeResult (dr : Reg) (v : Word) (s : State) : WritesResult dr v s (writeResult dr v s) := by
  have hdr : readReg dr (writeResult dr v s) = v := by simp
  have hregs : RegsKeptBut [dr] s (writeResult dr v s) := by
    intro r hr
    rw [readReg_writeResult, if_neg (List.ne_of_not_mem_cons hr)]
  exact ⟨hdr, flagsSay_condOf v, hregs, rfl, fun _ => rfl, rfl, rfl, rfl⟩

/-! ### Sums and extended fields -/

/-- The sum of two Words wraps modulo 65536 (R140). -/
theorem add_eq_ofNat_mod (a b : Word) : a + b = BitVec.ofNat 16 ((a.toNat + b.toNat) % 65536) := by
  apply BitVec.eq_of_toNat_eq
  simp

/-- Sign extension keeps the signed value, modulo 65536 (R9). -/
theorem sext_eq_ofInt {n : Nat} (v : BitVec n) : sext v = BitVec.ofInt 16 v.toInt := rfl

/-- Adding an extended field adds its signed value, modulo 65536 (R51, R141). -/
theorem add_sext_eq_ofInt {n : Nat} (a : Word) (v : BitVec n) :
    a + sext v = BitVec.ofInt 16 ((a.toNat : Int) + v.toInt) := by
  rw [BitVec.ofInt_add, BitVec.ofInt_natCast, BitVec.ofNat_toNat, BitVec.setWidth_eq, sext_eq_ofInt]

/-- A PC-relative address is the post-fetch PC plus the signed offset, modulo 65536 (R97, R145, R179). -/
theorem pcRel_eq_ofInt {n : Nat} (off : BitVec n) (s : State) :
    pcRel off s = BitVec.ofInt 16 ((s.pc.toNat : Int) + off.toInt) :=
  add_sext_eq_ofInt s.pc off

/-- A Word with the signed value of a field is that field, extended. -/
theorem eq_sext_of_toInt_eq {n : Nat} {a : Word} {v : BitVec n} (h : a.toInt = v.toInt) : a = sext v := by
  rw [sext_eq_ofInt, ← h, BitVec.ofInt_toInt]

/-! ### The four instructions -/

theorem exec_addReg (dr sr1 sr2 : Reg) (s : State) :
    exec (.addReg dr sr1 sr2) s = .next (writeResult dr (readReg sr1 s + readReg sr2 s) s) := rfl

theorem exec_addImm (dr sr1 : Reg) (imm : BitVec 5) (s : State) :
    exec (.addImm dr sr1 imm) s = .next (writeResult dr (readReg sr1 s + sext imm) s) := rfl

theorem exec_andReg (dr sr1 sr2 : Reg) (s : State) :
    exec (.andReg dr sr1 sr2) s = .next (writeResult dr (readReg sr1 s &&& readReg sr2 s) s) := rfl

theorem exec_andImm (dr sr1 : Reg) (imm : BitVec 5) (s : State) :
    exec (.andImm dr sr1 imm) s = .next (writeResult dr (readReg sr1 s &&& sext imm) s) := rfl

theorem exec_not (dr sr : Reg) (s : State) : exec (.not dr sr) s = .next (writeResult dr (~~~ readReg sr s) s) := rfl

theorem exec_lea (dr : Reg) (off : BitVec 9) (s : State) :
    exec (.lea dr off) s = .next (writeResult dr (pcRel off s) s) := rfl

end Machine
end Sys2Proof

open Sys2Proof Sys2Proof.Machine

/-- Settles O28: the result written is the wrapping sum, and the two forms add the same Word. -/
theorem addWritesTheWrappingSum : Obligations.AddWritesTheWrappingSum := by
  unfold Obligations.AddWritesTheWrappingSum
  refine ⟨fun dr sr1 sr2 s => ?_, fun dr sr1 imm s => ?_, fun dr sr1 sr2 imm s himm => ?_,
    decodeWord_addRegFormat, decodeWord_addImm⟩
  · rw [← add_eq_ofNat_mod]
    exact ⟨_, exec_addReg dr sr1 sr2 s, writesResult_writeResult _ _ _⟩
  · rw [← add_sext_eq_ofInt]
    exact ⟨_, exec_addImm dr sr1 imm s, writesResult_writeResult _ _ _⟩
  · rw [exec_addReg, exec_addImm, eq_sext_of_toInt_eq himm]

/-- Settles O29: the result written is the conjunction, bit by bit, and the two forms take the same Word. -/
theorem andWritesTheBitwiseConjunction : Obligations.AndWritesTheBitwiseConjunction := by
  unfold Obligations.AndWritesTheBitwiseConjunction
  refine ⟨fun dr sr1 sr2 s => ?_, fun dr sr1 imm s => ?_, fun dr sr1 sr2 imm s himm => ?_,
    decodeWord_andRegFormat, decodeWord_andImm⟩
  · exact ⟨_, _, exec_andReg dr sr1 sr2 s, fun _ => BitVec.getLsbD_and, writesResult_writeResult _ _ _⟩
  · exact ⟨_, _, exec_andImm dr sr1 imm s, fun _ => BitVec.getLsbD_and, writesResult_writeResult _ _ _⟩
  · rw [exec_andReg, exec_andImm, eq_sext_of_toInt_eq himm]

/-- Settles O30: the result written is the complement, bit by bit. -/
theorem notWritesTheComplement : Obligations.NotWritesTheComplement := by
  unfold Obligations.NotWritesTheComplement
  refine ⟨fun dr sr s => ⟨_, _, exec_not dr sr s, fun k hk => ?_, writesResult_writeResult _ _ _⟩, decodeWord_not⟩
  rw [BitVec.getLsbD_not, decide_eq_true hk, Bool.true_and]

/-- Settles O31: the result written is the PC-relative address, which no read of memory is needed for. -/
theorem leaWritesTheAddressAndItsFlag : Obligations.LeaWritesTheAddressAndItsFlag := by
  unfold Obligations.LeaWritesTheAddressAndItsFlag
  refine ⟨fun dr off s => ?_, decodeWord_lea⟩
  rw [← pcRel_eq_ofInt]
  exact ⟨_, exec_lea dr off s, writesResult_writeResult _ _ _⟩

end

section
/-! PROOFS. BR, JMP and JSR (42_control_flow.md R161 to R165): one effect, that of `setPc`, after the link where there
is one, and the words of their encoding lines. -/

namespace Sys2Proof

/-! ### Decoding the words of the encoding lines (R89 to R91), ignored bits included (R98, D6) -/

/-- The mask of BR stands where the other formats hold their first register. -/
theorem fieldNzp_eq_reg9 (w : Word) : fieldNzp w = (fieldReg9 w).toBits :=
  (Reg.toBits_ofBits (w.extractLsb' 9 3)).symm

/-- The word of BR is one of format PC-relative, with the mask as the register's index (R89). -/
theorem brFormat_eq_encPcRel (nzp : BitVec 3) (off : BitVec 9) :
    Opcode.br.toBits ++ nzp ++ off = encPcRel .br (Reg.ofBits nzp) off := by
  rw [encPcRel, Reg.toBits_ofBits]

theorem decodeWord_brFormat (nzp : BitVec 3) (off : BitVec 9) :
    decodeWord (Opcode.br.toBits ++ nzp ++ off) = .br nzp off := by
  rw [brFormat_eq_encPcRel]
  simp [decodeWord, fieldNzp_eq_reg9]

/-- The word of JMP has the fields of format base+offset, with its ignored bits as the register and the offset (R90). -/
theorem jmpFormat_eq_encBaseOff (base : Reg) (x : BitVec 3) (y : BitVec 6) :
    Opcode.jmp.toBits ++ x ++ base.toBits ++ y = encBaseOff .jmp (Reg.ofBits x) base y := by
  rw [encBaseOff, Reg.toBits_ofBits]

theorem decodeWord_jmpFormat (base : Reg) (x : BitVec 3) (y : BitVec 6) :
    decodeWord (Opcode.jmp.toBits ++ x ++ base.toBits ++ y) = .jmp base := by
  rw [jmpFormat_eq_encBaseOff]
  simp [decodeWord]

/-- RET is JMP R7 (R164). -/
theorem decodeWord_ret : decodeWord 0xC1C0#16 = .jmp .r7 :=
  decodeWord_jmpFormat .r7 0#3 0#6

/-! The mode bit of opcode 4, bit 11, and the eleven bits below it (R91, R92). -/

@[simp] theorem fieldOp_longFormat (op : BitVec 4) (flag : BitVec 1) (off : BitVec 11) :
    fieldOp (op ++ flag ++ off) = op := by
  unfold fieldOp
  ext i hi
  simp only [BitVec.getElem_extractLsb', BitVec.getLsbD_append]
  interval_cases i <;> simp

@[simp] theorem fieldLongFlag_longFormat (op : BitVec 4) (flag : BitVec 1) (off : BitVec 11) :
    fieldLongFlag (op ++ flag ++ off) = flag.getLsbD 0 := by
  simp only [fieldLongFlag, BitVec.getLsbD_append]
  simp

@[simp] theorem fieldOff11_longFormat (op : BitVec 4) (flag : BitVec 1) (off : BitVec 11) :
    fieldOff11 (op ++ flag ++ off) = off :=
  BitVec.extractLsb'_append_eq_right

theorem decodeWord_jsrFormat (off : BitVec 11) : decodeWord (Opcode.jsr.toBits ++ 1#1 ++ off) = .jsr off := by
  simp [decodeWord]

namespace Machine

/-! ### The one effect of the transfers of control (R160) -/

/-- Setting `pc` changes nothing else. -/
theorem goesTo_setPc (target : Word) (s : State) : GoesTo target [] s (setPc target s) :=
  ⟨rfl, fun _ _ => rfl, rfl, fun _ => rfl, rfl, rfl, rfl⟩

/-- Setting `pc` after the link changes nothing else but R7. -/
theorem goesTo_setPc_saveReturn (target : Word) (s : State) : GoesTo target [.r7] s (setPc target (saveReturn s)) :=
  ⟨rfl, saveReturn_regsKeptBut s, rfl, fun _ => rfl, rfl, rfl, rfl⟩

/-! ### The test of BR (R161) -/

/-- The mask and the flags have a bit in common exactly when their conjunction is not zero. -/
theorem branchTaken_iff (nzp : BitVec 3) (s : State) :
    branchTaken nzp s = true ↔ ∃ k, k < 3 ∧ nzp.getLsbD k = true ∧ s.cond.getLsbD k = true := by
  simp only [branchTaken, bne_iff_ne, ne_eq, BitVec.eq_of_getLsbD_eq_iff, BitVec.getLsbD_and, BitVec.getLsbD_zero,
    not_forall, Bool.not_eq_false, Bool.and_eq_true, exists_prop]

/-! ### The three instructions -/

/-- BR sets `pc` in both cases: where it is not taken, to the value that `pc` has. -/
theorem exec_br (nzp : BitVec 3) (off : BitVec 9) (s : State) :
    exec (.br nzp off) s = .next (setPc (if branchTaken nzp s then pcRel off s else s.pc) s) := by
  rw [apply_ite (setPc · s)]
  rfl

theorem exec_jmp (base : Reg) (s : State) : exec (.jmp base) s = .next (setPc (readReg base s) s) := rfl

theorem exec_jsr (off : BitVec 11) (s : State) :
    exec (.jsr off) s = .next (setPc (pcRel off s) (saveReturn s)) := rfl

end Machine
end Sys2Proof

open Sys2Proof Sys2Proof.Machine

/-- Settles O32: `pc` is set to the one of the two targets that the common bit decides, and to nothing else. -/
theorem brIsTakenExactlyOnACommonBit : Obligations.BrIsTakenExactlyOnACommonBit := by
  unfold Obligations.BrIsTakenExactlyOnACommonBit
  refine ⟨fun nzp off s => ⟨_, exec_br nzp off s, ?_⟩, decodeWord_brFormat⟩
  rw [← branchTaken_iff, ← pcRel_eq_ofInt]
  refine ⟨fun htaken => ?_, fun hnot => ?_⟩
  · rw [if_pos htaken]
    exact goesTo_setPc _ s
  · rw [if_neg hnot]
    exact goesTo_setPc _ s

/-- Settles O33: `pc` is set to the value of BaseR, and the word 0xC1C0 is JMP R7. -/
theorem jmpGoesToTheBaseRegister : Obligations.JmpGoesToTheBaseRegister := by
  unfold Obligations.JmpGoesToTheBaseRegister
  rw [decodeWord_ret]
  have hjmp : ∀ (base : Reg) (s : State), ∃ t, exec (.jmp base) s = .next t ∧ GoesTo (readReg base s) [] s t :=
    fun base s => ⟨_, exec_jmp base s, goesTo_setPc _ s⟩
  exact ⟨hjmp, hjmp .r7, decodeWord_jmpFormat⟩

/-- Settles O34: the link writes R7 alone and leaves the `pc` that the target is taken from. -/
theorem jsrLinksAndGoesToTheOffset : Obligations.JsrLinksAndGoesToTheOffset := by
  unfold Obligations.JsrLinksAndGoesToTheOffset
  refine ⟨fun off s => ?_, decodeWord_jsrFormat⟩
  have hlink : readReg .r7 (setPc (pcRel off s) (saveReturn s)) = s.pc := by simp
  rw [← pcRel_eq_ofInt]
  exact ⟨_, exec_jsr off s, hlink, goesTo_setPc_saveReturn _ s⟩

end

section
/-! PROOFS. LD, LDI, LDR, ST, STI and STR (43_memory_access.md R180 to R185): the one effect of the loads and the one of
the stores, each after any reads, and the words of their encoding lines. -/

namespace Sys2Proof

/-! ### Decoding the words of the encoding lines (R93, R94) -/

@[simp] theorem decodeWord_ld (dr : Reg) (off : BitVec 9) : decodeWord (encPcRel .ld dr off) = .ld dr off := by
  simp [decodeWord]

@[simp] theorem decodeWord_ldi (dr : Reg) (off : BitVec 9) : decodeWord (encPcRel .ldi dr off) = .ldi dr off := by
  simp [decodeWord]

@[simp] theorem decodeWord_ldr (dr base : Reg) (off : BitVec 6) :
    decodeWord (encBaseOff .ldr dr base off) = .ldr dr base off := by
  simp [decodeWord]

@[simp] theorem decodeWord_st (sr : Reg) (off : BitVec 9) : decodeWord (encPcRel .st sr off) = .st sr off := by
  simp [decodeWord]

@[simp] theorem decodeWord_sti (sr : Reg) (off : BitVec 9) : decodeWord (encPcRel .sti sr off) = .sti sr off := by
  simp [decodeWord]

@[simp] theorem decodeWord_str (sr base : Reg) (off : BitVec 6) :
    decodeWord (encBaseOff .str sr base off) = .str sr base off := by
  simp [decodeWord]

namespace Machine

/-! ### The addresses (R179) -/

/-- A base + offset address is the base register's value plus the signed offset, modulo 65536 (R51, R179). -/
theorem baseOff_eq_ofInt (base : Reg) (off : BitVec 6) (s : State) :
    baseOff base off s = BitVec.ofInt 16 (((readReg base s).toNat : Int) + off.toInt) :=
  add_sext_eq_ofInt (readReg base s) off

/-- The pointer of LDI and STI is read at the PC-relative address (R181, R184). -/
theorem indirect_eq_memRead (off : BitVec 9) (s : State) :
    indirect off s = memRead (BitVec.ofInt 16 ((s.pc.toNat : Int) + off.toInt)) s := by
  rw [indirect, pcRel_eq_ofInt]

/-! ### What no memory access changes -/

/-- From `s` to `t` only the storage and the console's input may have changed: what is left alone by a read (R54, R56)
and by a store (R55), and so by any number of them. -/
def KeptByAccess (s t : State) : Prop :=
  RegsKeptBut [] s t ∧ t.cond = s.cond ∧ t.pc = s.pc ∧ t.run = s.run ∧ t.out = s.out

theorem KeptByAccess.refl (s : State) : KeptByAccess s s := ⟨fun _ _ => rfl, rfl, rfl, rfl, rfl⟩

theorem KeptByAccess.trans {s t u : State} (hst : KeptByAccess s t) (htu : KeptByAccess t u) : KeptByAccess s u := by
  obtain ⟨hregs, hcond, hpc, hrun, hout⟩ := hst
  obtain ⟨hregs', hcond', hpc', hrun', hout'⟩ := htu
  exact ⟨fun r hr => (hregs' r hr).trans (hregs r hr), hcond'.trans hcond, hpc'.trans hpc, hrun'.trans hrun,
    hout'.trans hout⟩

theorem keptByAccess_memRead (a : Word) (s : State) : KeptByAccess s (memRead a s).2 :=
  ⟨fun r _ => readReg_afterRead r a s, afterRead_cond a s, afterRead_pc a s, afterRead_run a s, afterRead_out a s⟩

theorem Stores.keptByAccess {a v : Word} {s t : State} (h : Stores a v s t) : KeptByAccess s t := by
  obtain ⟨-, -, hregs, hcond, hpc, hrun, hout, -⟩ := h
  exact ⟨hregs, hcond, hpc, hrun, hout⟩

/-! ### The one effect of the loads (R180 to R182) -/

/-- Writing a result after reads is a load of it: DR and the flags are the only thing changed since the last read. -/
theorem KeptByAccess.loads_writeResult {s u : State} (h : KeptByAccess s u) (dr : Reg) (v : Word) :
    Loads dr (v, u) s (writeResult dr v u) := by
  obtain ⟨hregs, -, hpc, hrun, hout⟩ := h
  obtain ⟨hdr, hflags, hregs', hpc', hmem, hrun', hout', hconsole⟩ := writesResult_writeResult dr v u
  have hothers : RegsKeptBut [dr] s (writeResult dr v u) :=
    fun r hr => (hregs' r hr).trans (hregs r List.not_mem_nil)
  exact ⟨hdr, hflags, hothers, hpc'.trans hpc, hrun'.trans hrun, hout'.trans hout, hconsole, hmem⟩

/-- The common end of the loads, in the state that earlier reads have left. -/
theorem KeptByAccess.loads_loadInto {s u : State} (h : KeptByAccess s u) (dr : Reg) (ea : Word) :
    Loads dr (memRead ea u) s (loadInto dr ea u) :=
  (h.trans (keptByAccess_memRead ea u)).loads_writeResult dr (memRead ea u).1

/-! ### The six instructions -/

theorem exec_ld (dr : Reg) (off : BitVec 9) (s : State) :
    exec (.ld dr off) s = .next (loadInto dr (pcRel off s) s) := rfl

theorem exec_ldi (dr : Reg) (off : BitVec 9) (s : State) :
    exec (.ldi dr off) s = .next (loadInto dr (indirect off s).1 (indirect off s).2) := rfl

theorem exec_ldr (dr base : Reg) (off : BitVec 6) (s : State) :
    exec (.ldr dr base off) s = .next (loadInto dr (baseOff base off s) s) := rfl

theorem exec_st (sr : Reg) (off : BitVec 9) (s : State) :
    exec (.st sr off) s = .next (memWrite (pcRel off s) (readReg sr s) s) := rfl

/-- STI in terms of the state before it: the pointer read does not disturb SR (R184). -/
theorem exec_sti (sr : Reg) (off : BitVec 9) (s : State) :
    exec (.sti sr off) s = .next (memWrite (indirect off s).1 (readReg sr s) (indirect off s).2) := by
  have hsr : readReg sr (indirect off s).2 = readReg sr s := readReg_afterRead sr (pcRel off s) s
  rw [← hsr]
  rfl

theorem exec_str (sr base : Reg) (off : BitVec 6) (s : State) :
    exec (.str sr base off) s = .next (memWrite (baseOff base off s) (readReg sr s) s) := rfl

end Machine
end Sys2Proof

open Sys2Proof Sys2Proof.Machine

/-- Settles O37: one load, at the PC-relative address. -/
theorem ldLoadsFromThePcRelativeAddress : Obligations.LdLoadsFromThePcRelativeAddress := by
  unfold Obligations.LdLoadsFromThePcRelativeAddress
  refine ⟨fun dr off s => ⟨_, exec_ld dr off s, ?_⟩, decodeWord_ld⟩
  rw [← pcRel_eq_ofInt]
  exact (KeptByAccess.refl s).loads_loadInto dr _

/-- Settles O38: the load is made in the state that the pointer read leaves, at the address it gives. -/
theorem ldiLoadsThroughThePointer : Obligations.LdiLoadsThroughThePointer := by
  unfold Obligations.LdiLoadsThroughThePointer
  refine ⟨fun dr off s => ⟨_, exec_ldi dr off s, ?_⟩, decodeWord_ldi⟩
  rintro _ rfl
  rw [indirect_eq_memRead]
  exact (keptByAccess_memRead _ s).loads_loadInto dr _

/-- Settles O39: one load, at the address that the base gives before DR is written. -/
theorem ldrLoadsFromBasePlusOffset : Obligations.LdrLoadsFromBasePlusOffset := by
  unfold Obligations.LdrLoadsFromBasePlusOffset
  refine ⟨fun dr base off s => ⟨_, exec_ldr dr base off s, ?_⟩, decodeWord_ldr⟩
  rw [← baseOff_eq_ofInt]
  exact (KeptByAccess.refl s).loads_loadInto dr _

/-- Settles O40: one store, at the PC-relative address. -/
theorem stStoresAtThePcRelativeAddress : Obligations.StStoresAtThePcRelativeAddress := by
  unfold Obligations.StStoresAtThePcRelativeAddress
  exact ⟨fun sr off s => ⟨_, exec_st sr off s, pcRel_eq_ofInt off s, stores_memWrite _ _ s⟩, decodeWord_st⟩

/-- Settles O41: the store is made in the state that the pointer read leaves, and neither touches the rest. -/
theorem stiStoresThroughThePointer : Obligations.StiStoresThroughThePointer := by
  unfold Obligations.StiStoresThroughThePointer
  refine ⟨fun sr off s => ⟨_, exec_sti sr off s, indirect_eq_memRead off s, ?_⟩, decodeWord_sti⟩
  have hread : KeptByAccess s (indirect off s).2 := keptByAccess_memRead (pcRel off s) s
  have hstore := stores_memWrite (indirect off s).1 (readReg sr s) (indirect off s).2
  exact ⟨hstore, hread.trans hstore.keptByAccess⟩

/-- Settles O42: one store, at the base register's value plus the offset. -/
theorem strStoresAtBasePlusOffset : Obligations.StrStoresAtBasePlusOffset := by
  unfold Obligations.StrStoresAtBasePlusOffset
  exact ⟨fun sr base off s => ⟨_, exec_str sr base off s, baseOff_eq_ofInt base off s, stores_memWrite _ _ s⟩,
    decodeWord_str⟩

end

section
/-! PROOFS. Decoding inverts encoding, format by format (30_encoding.md R84 to R96), and JSRR (42_control_flow.md R166),
whose word the fields of the other formats describe. -/

namespace Sys2Proof

/-! ### The word of JSRR (R92) -/

/-- The mode bit of opcode 4, bit 11, is the top one of the three bits that other formats hold a register in. -/
theorem fieldLongFlag_eq_reg9 (w : Word) : fieldLongFlag w = (fieldReg9 w).toBits.getLsbD 2 := by
  simp [fieldLongFlag, fieldReg9]

/-- The word of JSRR has the fields of format base+offset: the mode bit with two ignored bits as the register, and six
ignored bits as the offset (R92). -/
theorem jsrrFormat_eq_encBaseOff (base : Reg) (x : BitVec 2) (y : BitVec 6) :
    Opcode.jsr.toBits ++ 0#1 ++ x ++ base.toBits ++ y = encBaseOff .jsr (Reg.ofBits (0#1 ++ x)) base y := by
  rw [encBaseOff, Reg.toBits_ofBits, BitVec.append_assoc' (x₁ := Opcode.jsr.toBits)]
  rfl

@[simp] theorem fieldLongFlag_jsrrFormat (base : Reg) (x : BitVec 2) (y : BitVec 6) :
    fieldLongFlag (encBaseOff .jsr (Reg.ofBits (0#1 ++ x)) base y) = false := by
  rw [fieldLongFlag_eq_reg9, fieldReg9_encBaseOff, Reg.toBits_ofBits, BitVec.getLsbD_append]
  simp

theorem decodeWord_jsrrFormat (base : Reg) (x : BitVec 2) (y : BitVec 6) :
    decodeWord (Opcode.jsr.toBits ++ 0#1 ++ x ++ base.toBits ++ y) = .jsrr base := by
  rw [jsrrFormat_eq_encBaseOff]
  simp [decodeWord]

/-! ### The words of ADD and AND, register form, as they are encoded (R86) -/

@[simp] theorem decodeWord_addReg (dr sr1 sr2 : Reg) :
    decodeWord (encAluReg .add dr sr1 sr2) = .addReg dr sr1 sr2 := by
  simp [decodeWord]

@[simp] theorem decodeWord_andReg (dr sr1 sr2 : Reg) :
    decodeWord (encAluReg .and dr sr1 sr2) = .andReg dr sr1 sr2 := by
  simp [decodeWord]

/-! ### The words of TRAP (R95) -/

/-- A vector that names no service stays in `trapOther` (R210). -/
theorem decodeTrap_of_wf {v : BitVec 8} (h : (Instr.trapOther v).wf = true) : decodeTrap v = .trapOther v := by
  have hother : isServiceVector v = false := by simpa [Instr.wf] using h
  rcases decodeTrap_cases v with ⟨hservice, -⟩ | ⟨-, heq⟩
  · rw [hother] at hservice
    cases hservice
  · exact heq

theorem decodeWord_encTrap (v : BitVec 8) : decodeWord (encTrap v) = decodeTrap v :=
  decodeWord_trapFormat 0#4 v

/-- The decoder undoes the encoder, format by format; only `trapOther` needs the instruction to be well formed. -/
theorem decodeWord_encode {i : Instr} (h : i.wf = true) : decodeWord (encode i) = i := by
  cases i with
  | br nzp off => exact decodeWord_brFormat nzp off
  | addReg dr sr1 sr2 => exact decodeWord_addReg dr sr1 sr2
  | andReg dr sr1 sr2 => exact decodeWord_andReg dr sr1 sr2
  | addImm dr sr1 imm => exact decodeWord_addImm dr sr1 imm
  | andImm dr sr1 imm => exact decodeWord_andImm dr sr1 imm
  | not dr sr => exact decodeWord_not dr sr _
  | lea dr off => exact decodeWord_lea dr off
  | ld dr off => exact decodeWord_ld dr off
  | ldi dr off => exact decodeWord_ldi dr off
  | ldr dr base off => exact decodeWord_ldr dr base off
  | st sr off => exact decodeWord_st sr off
  | sti sr off => exact decodeWord_sti sr off
  | str sr base off => exact decodeWord_str sr base off
  | jmp base => exact decodeWord_jmpFormat base 0#3 0#6
  | jsr off => exact decodeWord_jsrFormat off
  | jsrr base => exact decodeWord_jsrrFormat base 0#2 0#6
  | rti => rfl
  | res => rfl
  | trapGetc | trapOut | trapPuts | trapIn | trapPutsp | trapHalt => exact decodeWord_encTrap _
  | trapOther v => exact (decodeWord_encTrap v).trans (decodeTrap_of_wf h)

end Sys2Proof

open Sys2Proof

/-- Settles O2: each instruction's format gives its operands back. -/
theorem decodeInvertsEncode : Obligations.DecodeInvertsEncode :=
  fun _ => decodeWord_encode

end

section
/-! PROOFS. Which bits of a Word matter to the decoder (30_encoding.md R98, D6), and the encoding summary
(section 8). -/

namespace Sys2Proof

/-! ### A Word is its fields, side by side -/

theorem encBaseOff_fields {w : Word} {op : Opcode} (h : Opcode.ofBits (fieldOp w) = op) :
    encBaseOff op (fieldReg9 w) (fieldReg6 w) (fieldOff6 w) = w := by
  subst h
  simp only [encBaseOff, fieldReg9, fieldReg6, Opcode.toBits_ofBits, Reg.toBits_ofBits]
  unfold fieldOp fieldOff6
  ext i hi
  simp only [BitVec.getElem_append, BitVec.getElem_extractLsb']
  interval_cases i <;> rfl

theorem encPcRel_fields {w : Word} {op : Opcode} (h : Opcode.ofBits (fieldOp w) = op) :
    encPcRel op (fieldReg9 w) (fieldOff9 w) = w := by
  subst h
  simp only [encPcRel, fieldReg9, Opcode.toBits_ofBits, Reg.toBits_ofBits]
  unfold fieldOp fieldOff9
  ext i hi
  simp only [BitVec.getElem_append, BitVec.getElem_extractLsb']
  interval_cases i <;> rfl

theorem brFormat_fields {w : Word} (h : Opcode.ofBits (fieldOp w) = .br) :
    Opcode.br.toBits ++ fieldNzp w ++ fieldOff9 w = w := by
  rw [brFormat_eq_encPcRel, fieldNzp_eq_reg9, Reg.ofBits_toBits, encPcRel_fields h]

theorem encAluImm_fields {w : Word} {op : Opcode} (h : Opcode.ofBits (fieldOp w) = op)
    (hflag : fieldImmFlag w = true) :
    encAluImm op (fieldReg9 w) (fieldReg6 w) (fieldImm5 w) = w := by
  have hlow : 1#1 ++ fieldImm5 w = fieldOff6 w := by
    unfold fieldImm5 fieldOff6 fieldImmFlag at *
    ext i hi
    simp only [BitVec.getElem_append, BitVec.getElem_extractLsb']
    interval_cases i <;> simp_all
  rw [encAluImm, BitVec.append_assoc, hlow]
  exact encBaseOff_fields h

theorem jsrFormat_fields {w : Word} (h : Opcode.ofBits (fieldOp w) = .jsr) (hflag : fieldLongFlag w = true) :
    Opcode.jsr.toBits ++ 1#1 ++ fieldOff11 w = w := by
  have hop : Opcode.jsr.toBits = fieldOp w := by rw [← h, Opcode.toBits_ofBits]
  rw [hop]
  unfold fieldOp fieldOff11 fieldLongFlag at *
  ext i hi
  simp only [BitVec.getElem_append, BitVec.getElem_extractLsb']
  interval_cases i <;> simp_all

/-! ### Encoding what was decoded gives the Word back, ignored bits apart (R98, D6) -/

/-- Under a mask made of one mask per field of format base+offset, words agree that agree field by field. -/
theorem encBaseOff_masked_eq {w e m : Word} {op : Opcode} {r base : Reg} {off : BitVec 6} (mr mb : BitVec 3)
    (mo : BitVec 6) (h : Opcode.ofBits (fieldOp w) = op) (he : e = encBaseOff op r base off)
    (hm : m = 0xF#4 ++ mr ++ mb ++ mo) (hr : r.toBits &&& mr = (fieldReg9 w).toBits &&& mr)
    (hb : base.toBits &&& mb = (fieldReg6 w).toBits &&& mb) (ho : off &&& mo = fieldOff6 w &&& mo) :
    e &&& m = w &&& m := by
  have hand : ∀ (r base : Reg) (off : BitVec 6), encBaseOff op r base off &&& m =
      (op.toBits &&& 0xF#4) ++ (r.toBits &&& mr) ++ (base.toBits &&& mb) ++ (off &&& mo) := by
    intro r base off
    rw [hm, encBaseOff, BitVec.and_append, BitVec.and_append, BitVec.and_append]
  conv_rhs => rw [← encBaseOff_fields h]
  rw [he, hand, hand, hr, hb, ho]

/-- Bits [4:3] of format ALU-reg are ignored. -/
theorem encAluReg_masked {w : Word} {op : Opcode} (h : Opcode.ofBits (fieldOp w) = op)
    (hflag : fieldImmFlag w = false) :
    encAluReg op (fieldReg9 w) (fieldReg6 w) (fieldReg0 w) &&& 0xFFE7#16 = w &&& 0xFFE7#16 := by
  have hlow : (0#3 ++ (fieldReg0 w).toBits) &&& 0b100111#6 = fieldOff6 w &&& 0b100111#6 := by
    rw [fieldImmFlag_eq_off6] at hflag
    rw [fieldReg0_eq_off6, Reg.toBits_ofBits]
    ext i hi
    simp only [BitVec.getElem_and, BitVec.getElem_append, BitVec.getElem_extractLsb']
    interval_cases i <;> simp_all
  have hformat : encAluReg op (fieldReg9 w) (fieldReg6 w) (fieldReg0 w) =
      encBaseOff op (fieldReg9 w) (fieldReg6 w) (0#3 ++ (fieldReg0 w).toBits) := by
    rw [encAluReg, BitVec.append_assoc]
    rfl
  exact encBaseOff_masked_eq 0b111#3 0b111#3 0b100111#6 h hformat rfl rfl rfl hlow

theorem encTrap_masked {w : Word} (h : Opcode.ofBits (fieldOp w) = .trap) :
    encTrap (fieldVect8 w) &&& 0xF0FF#16 = w &&& 0xF0FF#16 := by
  have hop : fieldOp w = Opcode.trap.toBits := by rw [← h, Opcode.toBits_ofBits]
  rw [masked_vector, masked_vector, fieldOp_encTrap, fieldVect8_encTrap, hop]

theorem encode_decodeTrap (v : BitVec 8) : encode (decodeTrap v) = encTrap v := by
  rcases decodeTrap_cases v with ⟨hservice, -⟩ | ⟨-, heq⟩
  · simp only [isServiceVector, Bool.or_eq_true, beq_iff_eq, or_assoc] at hservice
    rcases hservice with rfl | rfl | rfl | rfl | rfl | rfl <;> rfl
  · rw [heq]
    rfl

theorem usedBits_decodeTrap (v : BitVec 8) : (decodeTrap v).usedBits = 0xF0FF#16 := by
  unfold decodeTrap
  split_ifs <;> rfl

/-- Of format JSRR the mode bit and BaseR count. -/
theorem jsrrFormat_masked {w : Word} (h : Opcode.ofBits (fieldOp w) = .jsr) (hflag : fieldLongFlag w = false) :
    encode (.jsrr (fieldReg6 w)) &&& 0xF9C0#16 = w &&& 0xF9C0#16 := by
  have hmode : Reg.r0.toBits &&& 0b100#3 = (fieldReg9 w).toBits &&& 0b100#3 := by
    rw [fieldLongFlag_eq_reg9] at hflag
    ext i hi
    simp only [BitVec.getElem_and]
    interval_cases i <;> simp_all [Reg.toBits]
  exact encBaseOff_masked_eq 0b100#3 0b111#3 0#6 h (r := .r0) (off := 0#6) rfl rfl hmode rfl (by simp)

/-- Of format JMP BaseR counts. -/
theorem jmpFormat_masked {w : Word} (h : Opcode.ofBits (fieldOp w) = .jmp) :
    encode (.jmp (fieldReg6 w)) &&& 0xF1C0#16 = w &&& 0xF1C0#16 :=
  encBaseOff_masked_eq 0#3 0b111#3 0#6 h (r := .r0) (off := 0#6) rfl rfl (by simp) rfl (by simp)

theorem notFormat_masked {w : Word} (h : Opcode.ofBits (fieldOp w) = .not) :
    encode (.not (fieldReg9 w) (fieldReg6 w)) &&& 0xFFC0#16 = w &&& 0xFFC0#16 :=
  encBaseOff_masked_eq 0b111#3 0b111#3 0#6 h rfl rfl rfl rfl (by simp)

/-- Of a fatal opcode's format the opcode counts alone. -/
theorem opcodeFormat_masked {w : Word} {op : Opcode} (h : Opcode.ofBits (fieldOp w) = op) :
    (op.toBits ++ 0#12) &&& 0xF000#16 = w &&& 0xF000#16 := by
  have hformat : op.toBits ++ 0#12 = encBaseOff op .r0 .r0 0#6 := by cases op <;> rfl
  exact encBaseOff_masked_eq 0#3 0#3 0#6 h hformat rfl (by simp) (by simp) (by simp)

/-- The encoder gives back every bit of a Word that its format does not ignore. -/
theorem encode_decodeWord_masked (w : Word) :
    encode (decodeWord w) &&& (decodeWord w).usedBits = w &&& (decodeWord w).usedBits := by
  unfold decodeWord
  cases h : Opcode.ofBits (fieldOp w) with
  | br => exact congrArg (· &&& _) (brFormat_fields h)
  | ld | st | ldi | sti | lea => exact congrArg (· &&& _) (encPcRel_fields h)
  | ldr | str => exact congrArg (· &&& _) (encBaseOff_fields h)
  | add | and =>
    cases hflag : fieldImmFlag w
    · exact encAluReg_masked h hflag
    · exact congrArg (· &&& _) (encAluImm_fields h hflag)
  | jsr =>
    cases hflag : fieldLongFlag w
    · exact jsrrFormat_masked h hflag
    · exact congrArg (· &&& _) (jsrFormat_fields h hflag)
  | jmp => exact jmpFormat_masked h
  | not => exact notFormat_masked h
  | rti | res => exact opcodeFormat_masked h
  | trap =>
    dsimp only
    rw [usedBits_decodeTrap, encode_decodeTrap, encTrap_masked h]

/-! ### The decoder looks at no ignored bit (R98, D6) -/

/-- Words that agree under a mask agree in every field inside the mask. -/
theorem extractLsb'_eq_of_masked {w w' m : Word} (h : w' &&& m = w &&& m) {start len : Nat}
    (hm : m.extractLsb' start len = BitVec.allOnes len) : w'.extractLsb' start len = w.extractLsb' start len := by
  have hfield := congrArg (BitVec.extractLsb' start len) h
  rwa [BitVec.extractLsb'_and, BitVec.extractLsb'_and, hm, BitVec.and_allOnes, BitVec.and_allOnes] at hfield

theorem fieldReg9_eq_of_masked {w w' m : Word} (h : w' &&& m = w &&& m) (hm : m.extractLsb' 9 3 = BitVec.allOnes 3) :
    fieldReg9 w' = fieldReg9 w :=
  congrArg Reg.ofBits (extractLsb'_eq_of_masked h hm)

theorem fieldReg6_eq_of_masked {w w' m : Word} (h : w' &&& m = w &&& m) (hm : m.extractLsb' 6 3 = BitVec.allOnes 3) :
    fieldReg6 w' = fieldReg6 w :=
  congrArg Reg.ofBits (extractLsb'_eq_of_masked h hm)

theorem fieldReg0_eq_of_masked {w w' m : Word} (h : w' &&& m = w &&& m) (hm : m.extractLsb' 0 3 = BitVec.allOnes 3) :
    fieldReg0 w' = fieldReg0 w :=
  congrArg Reg.ofBits (extractLsb'_eq_of_masked h hm)

theorem fieldImmFlag_eq_of_masked {w w' m : Word} (h : w' &&& m = w &&& m)
    (hm : m.extractLsb' 5 1 = BitVec.allOnes 1) :
    fieldImmFlag w' = fieldImmFlag w := by
  have hbit := congrArg (BitVec.getLsbD · 0) (extractLsb'_eq_of_masked h hm)
  simpa [fieldImmFlag] using hbit

theorem fieldLongFlag_eq_of_masked {w w' m : Word} (h : w' &&& m = w &&& m)
    (hm : m.extractLsb' 11 1 = BitVec.allOnes 1) :
    fieldLongFlag w' = fieldLongFlag w := by
  have hbit := congrArg (BitVec.getLsbD · 0) (extractLsb'_eq_of_masked h hm)
  simpa [fieldLongFlag] using hbit

/-- No format ignores an opcode bit. -/
theorem fieldOp_usedBits (i : Instr) : fieldOp i.usedBits = BitVec.allOnes 4 := by
  cases i <;> simp only [Instr.usedBits] <;> decide

/-- The bits of a Word that its own format does not ignore decide what it decodes to. -/
theorem decodeWord_eq_of_masked {w w' : Word}
    (h : w' &&& (decodeWord w).usedBits = w &&& (decodeWord w).usedBits) : decodeWord w' = decodeWord w := by
  have hop : fieldOp w' = fieldOp w := extractLsb'_eq_of_masked h (fieldOp_usedBits _)
  have hfull : w' &&& 0xFFFF#16 = w &&& 0xFFFF#16 → w' = w := fun h =>
    BitVec.and_allOnes.symm.trans (Eq.trans h BitVec.and_allOnes)
  unfold decodeWord at h ⊢
  rw [hop]
  -- RTI and RES have no fields to compare, so their cases close at once.
  cases ho : Opcode.ofBits (fieldOp w) <;> rw [ho] at h
  case br | ld | st | ldi | sti | lea | ldr | str => rw [hfull h]
  case jmp => exact congrArg Instr.jmp (fieldReg6_eq_of_masked (m := 0xF1C0#16) h (by decide))
  case not =>
    have hdr : fieldReg9 w' = fieldReg9 w := fieldReg9_eq_of_masked (m := 0xFFC0#16) h (by decide)
    have hsr : fieldReg6 w' = fieldReg6 w := fieldReg6_eq_of_masked (m := 0xFFC0#16) h (by decide)
    rw [hdr, hsr]
  case trap =>
    dsimp only at h
    rw [usedBits_decodeTrap] at h
    exact congrArg decodeTrap (extractLsb'_eq_of_masked h (by decide))
  case jsr =>
    cases hflag : fieldLongFlag w <;> rw [hflag] at h
    · have hflag' : fieldLongFlag w' = false :=
        (fieldLongFlag_eq_of_masked (m := 0xF9C0#16) h (by decide)).trans hflag
      have hbase : fieldReg6 w' = fieldReg6 w := fieldReg6_eq_of_masked (m := 0xF9C0#16) h (by decide)
      simp [hflag', hbase]
    · simp [hfull h, hflag]
  case add | and =>
    cases hflag : fieldImmFlag w <;> rw [hflag] at h
    · have hflag' : fieldImmFlag w' = false :=
        (fieldImmFlag_eq_of_masked (m := 0xFFE7#16) h (by decide)).trans hflag
      have hdr : fieldReg9 w' = fieldReg9 w := fieldReg9_eq_of_masked (m := 0xFFE7#16) h (by decide)
      have hsr1 : fieldReg6 w' = fieldReg6 w := fieldReg6_eq_of_masked (m := 0xFFE7#16) h (by decide)
      have hsr2 : fieldReg0 w' = fieldReg0 w := fieldReg0_eq_of_masked (m := 0xFFE7#16) h (by decide)
      simp [hflag', hdr, hsr1, hsr2]
    · simp [hfull h, hflag]

/-! ### The encoding summary (section 8) -/

/-- The table is searched by which of its rows match. -/
theorem firstRow_eq_findIdx (w : Word) :
    firstRow w = (opcodeTable.map fun r => w &&& r.mask == r.bits).findIdx? id := by
  rw [List.findIdx?_map]
  rfl

/-- Which rows match depends on the opcode, the two mode bits and the vector; the vector decides for TRAP alone. -/
theorem firstRow_eq_rowIndex (w : Word) : firstRow w = some (decodeWord w).rowIndex := by
  have hop : fieldOp w = (Opcode.ofBits (fieldOp w)).toBits := (Opcode.toBits_ofBits _).symm
  unfold decodeWord
  simp only [firstRow_eq_findIdx, opcodeTable, List.map_append, List.map_cons, List.map_nil, BitVec.ofNat_eq_ofNat,
    masked_op, masked_immFlag, masked_longFlag, masked_vector]
  generalize Opcode.ofBits (fieldOp w) = op at hop ⊢
  rw [hop]
  generalize fieldImmFlag w = imm, fieldLongFlag w = long, fieldVect8 w = v
  cases op with
  | trap =>
    change _ = some (decodeTrap v).rowIndex
    clear hop
    revert imm long v
    decide +kernel
  | _ => cases imm <;> cases long <;> rfl

end Sys2Proof

open Sys2Proof

/-- Settles O4: decoding looks at no ignored bit, and the encoder gives every other bit back. -/
theorem onlyIgnoredBitsDoNotMatter : Obligations.OnlyIgnoredBitsDoNotMatter := by
  unfold Obligations.OnlyIgnoredBitsDoNotMatter
  refine fun w w' => ⟨fun heq => ?_, decodeWord_eq_of_masked⟩
  have hmasked := encode_decodeWord_masked w'
  rw [heq, encode_decodeWord_masked w] at hmasked
  exact hmasked.symm

/-- Settles O5, opcode by opcode. -/
theorem decodingFollowsTheEncodingSummary : Obligations.DecodingFollowsTheEncodingSummary :=
  firstRow_eq_rowIndex

/-- Settles O6: the decoder evaluates on each example. -/
theorem exampleWordsDecodeAsTheRulesSay : Obligations.ExampleWordsDecodeAsTheRulesSay := by
  unfold Obligations.ExampleWordsDecodeAsTheRulesSay
  decide

end

section
/-! PROOFS. The storage as a list (10_state.md R37): its canonical form is determined by what it reads, and what reset
leaves in it (70_reset_and_hazards.md R250). -/

namespace Sys2Proof.Machine

/-! ### Reading a storage in canonical form -/

theorem Memory.wf.tail {c : Nat × Word} {m : Memory} (h : Memory.wf (c :: m)) : m.wf :=
  ⟨(List.pairwise_cons.mp h.1).2, fun d hd => h.2 d (List.mem_cons_of_mem c hd)⟩

@[simp] theorem Memory.read_cons_self (a : Nat) (v : Word) (m : Memory) : Memory.read ((a, v) :: m) a = v :=
  if_pos rfl

theorem Memory.read_cons_of_ne {a b : Nat} (v : Word) (m : Memory) (h : b ≠ a) :
    Memory.read ((a, v) :: m) b = Memory.read m b :=
  if_neg h

/-- An address below every listed one is not listed. -/
theorem Memory.read_of_lt {m : Memory} {a : Nat} (h : ∀ c ∈ m, a < c.1) : Memory.read m a = Memory.unlisted := by
  induction m with
  | nil => rfl
  | cons c m ih =>
    obtain ⟨hc, hm⟩ := List.forall_mem_cons.mp h
    rw [Memory.read_cons_of_ne _ _ hc.ne, ih hm]

/-- Without its first entry, a storage lists nothing up to that entry's address. -/
theorem Memory.read_of_le_head {c : Nat × Word} {m : Memory} (h : Memory.wf (c :: m)) {a : Nat} (ha : a ≤ c.1) :
    Memory.read m a = Memory.unlisted := by
  have hrest : ∀ d ∈ m, c.1 < d.1 := (List.pairwise_cons.mp h.1).1
  exact Memory.read_of_lt fun d hd => Nat.lt_of_le_of_lt ha (hrest d hd)

/-- A storage that reads alike has an entry for the first listed address too. -/
theorem Memory.read_head_ne {a : Nat} {v : Word} {m m' : Memory} (h : Memory.wf ((a, v) :: m))
    (heq : ∀ k, k ≤ 0xFFFF → Memory.read ((a, v) :: m) k = Memory.read m' k) :
    Memory.read m' a ≠ Memory.unlisted := by
  obtain ⟨hlt, hv⟩ := h.2 (a, v) List.mem_cons_self
  rwa [← heq a (Nat.le_of_lt_succ hlt), Memory.read_cons_self]

/-- The first address of a storage that reads alike is not above that of the other. -/
theorem Memory.head_le_of_read_eq {a b : Nat} {v w : Word} {m m' : Memory} (h : Memory.wf ((a, v) :: m))
    (h' : Memory.wf ((b, w) :: m'))
    (heq : ∀ k, k ≤ 0xFFFF → Memory.read ((a, v) :: m) k = Memory.read ((b, w) :: m') k) : b ≤ a := by
  by_contra hlt
  have hread := Memory.read_head_ne h heq
  rw [Memory.read_cons_of_ne w m' (by omega)] at hread
  exact hread (Memory.read_of_le_head h' (Nat.le_of_not_le hlt))

/-- Storages in canonical form that read alike are equal. -/
theorem Memory.ext_read {m m' : Memory} (h : m.wf) (h' : m'.wf)
    (heq : ∀ a, a ≤ 0xFFFF → Memory.read m a = Memory.read m' a) : m = m' := by
  induction m generalizing m' with
  | nil =>
    cases m' with
    | nil => rfl
    | cons d m' => exact absurd rfl (Memory.read_head_ne h' fun k hk => (heq k hk).symm)
  | cons c m ih =>
    cases m' with
    | nil => exact absurd rfl (Memory.read_head_ne h heq)
    | cons d m' =>
      obtain ⟨a, v⟩ := c
      obtain ⟨b, w⟩ := d
      obtain rfl : a = b := Nat.le_antisymm (Memory.head_le_of_read_eq h' h fun k hk => (heq k hk).symm)
        (Memory.head_le_of_read_eq h h' heq)
      have ha : a ≤ 0xFFFF := Nat.le_of_lt_succ (h.2 (a, v) List.mem_cons_self).1
      obtain rfl : v = w := by simpa using heq a ha
      -- At the first address both tails read as unlisted; elsewhere the first entries do not matter.
      have htail : ∀ k, k ≤ 0xFFFF → Memory.read m k = Memory.read m' k := by
        intro k hk
        by_cases hka : k = a
        · rw [Memory.read_of_le_head h hka.le, Memory.read_of_le_head h' hka.le]
        · have hboth := heq k hk
          rwa [Memory.read_cons_of_ne _ _ hka, Memory.read_cons_of_ne _ _ hka] at hboth
      rw [ih h.tail h'.tail htail]

/-! ### Reset (R250) -/

theorem readReg_boot (r : Reg) (origin : Word) (words : List Word) :
    readReg r (State.boot origin words) = 0x0000#16 := by
  cases r <;> rfl

theorem boot_inv (origin : Word) (words : List Word) : (State.boot origin words).Inv :=
  ⟨Memory.wf_loadImage Memory.wf_nil origin.toNat words, rfl⟩

/-- A cell of the image reads as its word, and a cell past the last word as unlisted. -/
theorem peek_boot_of_le {origin a : Word} (words : List Word) {k : Nat} (h : a.toNat = origin.toNat + k) :
    peek a (State.boot origin words) = words[k]?.getD 0x0000#16 := by
  have hend : origin.toNat + k ≤ 0xFFFF := by
    rw [← h]
    exact Nat.le_of_lt_succ a.isLt
  exact (congrArg _ h).trans (Memory.read_loadImage_add [] words hend)

theorem peek_boot_of_lt {origin a : Word} (words : List Word) (h : a.toNat < origin.toNat) :
    peek a (State.boot origin words) = 0x0000#16 :=
  Memory.read_loadImage_of_lt [] words h

end Sys2Proof.Machine

open Sys2Proof Sys2Proof.Machine

/-- Settles O22, by induction on both lists: the first entries agree, and so do the storages without them. -/
theorem storagesThatReadAlikeAreEqual : Obligations.StoragesThatReadAlikeAreEqual :=
  fun _ _ => Memory.ext_read

/-- Settles O57: all but the storage is that of reset, and the storage is the empty one with the image loaded. -/
theorem resetSequenceLeavesTheStatedState : Obligations.ResetSequenceLeavesTheStatedState := by
  unfold Obligations.ResetSequenceLeavesTheStatedState
  intro origin words
  refine ⟨fun r => readReg_boot r origin words, rfl, rfl, rfl, rfl, fun a => ⟨fun k w hw hak => ?_, ?_⟩, rfl⟩
  · rw [peek_boot_of_le words hak, hw, Option.getD_some]
  · rintro (hbelow | hpast)
    · exact peek_boot_of_lt words hbelow
    · obtain ⟨k, hk⟩ := Nat.exists_eq_add_of_le (Nat.le_of_add_right_le hpast)
      have hnone : words[k]? = none := List.getElem?_eq_none (by omega)
      rw [peek_boot_of_le words hk, hnone, Option.getD_none]

/-- Settles O58: reset is the reset sequence with no words. -/
theorem invariantHoldsAfterReset : Obligations.InvariantHoldsAfterReset :=
  ⟨boot_inv 0 [], boot_inv⟩

end

section
/-! PROOFS. The console's two input calls (10_state.md R41, R42) and the keyboard cells (20_memory.md R54, R59). -/

namespace Sys2Proof.Machine

/-- The answer true is only given where the next `read_char()` returns (R41). -/
theorem Console.readChar_of_keyAvailable {c : Console} (h : c.keyAvailable.1 = true) :
    ∃ b c', c.keyAvailable.2.readChar = some (b, c') := by
  obtain ⟨-, hsome⟩ := Bool.and_eq_true_iff.mp h
  obtain ⟨⟨b, c'⟩, hread⟩ := Option.isSome_iff_exists.mp hsome
  exact ⟨b, c', hread⟩

/-! ### The refresh, by the answer of the key poll (R54) -/

theorem kbsrRefresh_of_notReady {s : State} (h : s.console.keyAvailable.1 = false) :
    kbsrRefresh s = setConsole s.console.keyAvailable.2 (poke Config.kbsrAddr 0x0000#16 s) := by
  rcases kbsrRefresh_cases s with ⟨b, c, hready, -⟩ | ⟨-, heq⟩
  · rw [h] at hready
    cases hready
  · exact heq

theorem kbsrRefresh_of_ready {s : State} {b : Byte} {c : Console} (h : s.console.keyAvailable.1 = true)
    (hread : s.console.keyAvailable.2.readChar = some (b, c)) :
    kbsrRefresh s =
      setConsole c (poke Config.kbdrAddr (zext16 b) (poke Config.kbsrAddr Config.kbsrReady s)) := by
  unfold kbsrRefresh
  simp only [h, hread]

/-- What a refresh leaves in KBSR depends on the console alone, not on what KBSR held (R59). -/
theorem peek_kbsrRefresh_kbsr (s : State) :
    peek Config.kbsrAddr (kbsrRefresh s) = if s.console.keyAvailable.1 then Config.kbsrReady else 0x0000#16 := by
  have hne : Config.kbsrAddr ≠ Config.kbdrAddr := by decide
  cases hk : s.console.keyAvailable.1 with
  | false => simp [kbsrRefresh_of_notReady hk]
  | true =>
    obtain ⟨b, c, hread⟩ := Console.readChar_of_keyAvailable hk
    simp [kbsrRefresh_of_ready hk hread, hne]

/-- With no key the refresh clears KBSR and leaves every other cell alone, KBDR included. -/
theorem memKeptBut_kbsrRefresh {s : State} (h : s.console.keyAvailable.1 = false) :
    MemKeptBut Config.kbsrAddr s (kbsrRefresh s) := by
  intro a ha
  rw [kbsrRefresh_of_notReady h, peek_setConsole, peek_poke, if_neg ha]

/-- A key's character stands zero-extended in KBDR (D5). -/
theorem peek_kbsrRefresh_kbdr {s : State} {b : Byte} {c : Console} (h : s.console.keyAvailable.1 = true)
    (hread : s.console.keyAvailable.2.readChar = some (b, c)) : peek Config.kbdrAddr (kbsrRefresh s) = zext16 b := by
  rw [kbsrRefresh_of_ready h hread, peek_setConsole, peek_poke, if_pos rfl]

theorem memRead_kbsr (s : State) :
    memRead Config.kbsrAddr s = (peek Config.kbsrAddr (kbsrRefresh s), kbsrRefresh s) := by
  rw [memRead, afterRead_kbsr]

theorem toNat_zext16 (b : Byte) : (zext16 b).toNat = b.toNat :=
  BitVec.toNat_setWidth_of_le (by decide)

end Sys2Proof.Machine

open Sys2Proof Sys2Proof.Machine

/-- Settles O15. -/
theorem afterKeyAvailableReadCharReturns : Obligations.AfterKeyAvailableReadCharReturns :=
  fun _ => Console.readChar_of_keyAvailable

/-- Settles O17, by the answer of the key poll. -/
theorem kbsrReadRefreshesTheKeyboardCells : Obligations.KbsrReadRefreshesTheKeyboardCells := by
  unfold Obligations.KbsrReadRefreshesTheKeyboardCells
  intro s
  have hread : memRead 0xFE00#16 s = (peek Config.kbsrAddr (kbsrRefresh s), kbsrRefresh s) := memRead_kbsr s
  have hcell := peek_kbsrRefresh_kbsr s
  rw [hread]
  refine ⟨fun hk => ?_, fun hk => ?_, kbsrRefresh_regs s, kbsrRefresh_pc s, kbsrRefresh_cond s, kbsrRefresh_run s,
    kbsrRefresh_out s⟩
  · rw [hk, if_neg Bool.false_ne_true] at hcell
    exact ⟨hcell, hcell, memKeptBut_kbsrRefresh hk, by rw [kbsrRefresh_of_notReady hk, setConsole_console]⟩
  · obtain ⟨b, c, hchar⟩ := Console.readChar_of_keyAvailable hk
    rw [hk, if_pos rfl] at hcell
    have hkbdr : (peek Config.kbdrAddr (kbsrRefresh s)).toNat = b.toNat := by
      rw [peek_kbsrRefresh_kbdr hk hchar, toNat_zext16]
    exact ⟨b, c, hchar, hcell, hcell, hkbdr, fun a h1 h2 => kbsrRefresh_peek s h1 h2,
      by rw [kbsrRefresh_of_ready hk hchar, setConsole_console]⟩

/-- Settles O18: the refresh overwrites KBSR by the console's answer alone, and KBDR is plain storage otherwise. -/
theorem storedKeyboardValuesLastAsSaid : Obligations.StoredKeyboardValuesLastAsSaid := by
  unfold Obligations.StoredKeyboardValuesLastAsSaid
  intro v s
  have hkbsr : ∀ u : State, (memRead 0xFE00#16 u).1 =
      if u.console.keyAvailable.1 then Config.kbsrReady else 0x0000#16 := peek_kbsrRefresh_kbsr
  obtain ⟨hstored, -⟩ := stores_memWrite 0xFE02#16 v s
  refine ⟨?_, ?_, fun hk => ?_⟩
  · rw [hkbsr, hkbsr]
    rfl
  · rw [memRead_of_ne _ (by decide), hstored]
  · have hkeep : MemKeptBut Config.kbsrAddr (memWrite 0xFE02#16 v s) (kbsrRefresh (memWrite 0xFE02#16 v s)) :=
      memKeptBut_kbsrRefresh hk
    exact (hkeep 0xFE02#16 (by decide)).trans hstored

end

section
/-! PROOFS. Single instructions: JSRR and a BR that does nothing (42_control_flow.md R166, 30_encoding.md R101), the two
fatal opcodes (40_fetch_decode.md R127), and the loads where nothing is refreshed (43_memory_access.md R180 to R182). -/

namespace Sys2Proof

/-! ### The opcode as a number (R84) -/

/-- The opcode of a Word is its value divided by 4096. -/
theorem toNat_div_4096 (w : Word) : w.toNat / 4096 = (Opcode.ofBits (fieldOp w)).toBits.toNat := by
  have hlt : w.toNat < 65536 := w.isLt
  rw [Opcode.toBits_ofBits, fieldOp, BitVec.extractLsb'_toNat, Nat.shiftRight_eq_div_pow]
  omega

theorem opcode_eq_of_div_eq {w : Word} {op : Opcode} (h : w.toNat / 4096 = op.toBits.toNat) :
    Opcode.ofBits (fieldOp w) = op := by
  rw [toNat_div_4096] at h
  rw [← Opcode.ofBits_toBits (Opcode.ofBits (fieldOp w)), BitVec.eq_of_toNat_eq h, Opcode.ofBits_toBits]

theorem decodeWord_of_rti {w : Word} (h : w.toNat / 4096 = 8) : decodeWord w = .rti := by
  have hop : Opcode.ofBits (fieldOp w) = .rti := opcode_eq_of_div_eq h
  rw [decodeWord, hop]

theorem decodeWord_of_res {w : Word} (h : w.toNat / 4096 = 13) : decodeWord w = .res := by
  have hop : Opcode.ofBits (fieldOp w) = .res := opcode_eq_of_div_eq h
  rw [decodeWord, hop]

namespace Machine

/-! ### JSRR (R166) -/

/-- JSRR in terms of the state before it: BaseR is read after the link, which matters for R7 alone (D14). -/
theorem exec_jsrr (base : Reg) (s : State) :
    exec (.jsrr base) s = .next (setPc (if base = .r7 then s.pc else readReg base s) (saveReturn s)) := by
  rw [← readReg_saveReturn]
  rfl

/-! ### BR that is not taken -/

theorem branchTaken_of_mask_zero (s : State) : branchTaken 0#3 s = false := by simp [branchTaken]

theorem branchTaken_of_cond_zero (nzp : BitVec 3) {s : State} (h : s.cond = 0#3) : branchTaken nzp s = false := by
  simp [branchTaken, h]

/-- Not taken, BR answers the very state it is given. -/
theorem exec_br_of_not_taken {nzp : BitVec 3} {s : State} (h : branchTaken nzp s = false) (off : BitVec 9) :
    exec (.br nzp off) s = .next s := by
  rw [exec_br, h, if_neg Bool.false_ne_true]
  rfl

/-! ### The fatal opcodes (R127) -/

theorem exec_rti (s : State) : exec .rti s = .next (raiseFatal (.invalidOpcode 0x8#4) s) := rfl

theorem exec_res (s : State) : exec .res s = .next (raiseFatal (.invalidOpcode 0xD#4) s) := rfl

/-! ### Loads away from KBSR (R56) -/

/-- Away from KBSR a load writes the stored Word to DR and does nothing else. -/
theorem loadInto_of_ne (dr : Reg) {ea : Word} (s : State) (h : ea ≠ Config.kbsrAddr) :
    loadInto dr ea s = writeResult dr (peek ea s) s := by
  rw [loadInto, memRead_of_ne s h]

theorem indirect_of_ne {off : BitVec 9} {s : State} (h : pcRel off s ≠ Config.kbsrAddr) :
    indirect off s = (peek (pcRel off s) s, s) :=
  memRead_of_ne s h

end Machine
end Sys2Proof

open Sys2Proof Sys2Proof.Machine

/-- Settles O26: both opcodes raise their fatal error and do nothing else, and the opcode alone decides the decoding. -/
theorem rtiAndResAreFatalWhateverTheirLowBits : Obligations.RtiAndResAreFatalWhateverTheirLowBits :=
  ⟨fun s => ⟨_, exec_rti s, rfl⟩, fun s => ⟨_, exec_res s, rfl⟩, fun _ => decodeWord_of_rti,
    fun _ => decodeWord_of_res⟩

/-- Settles O35, by whether BaseR is R7. -/
theorem jsrrLinksBeforeItReadsTheBase : Obligations.JsrrLinksBeforeItReadsTheBase := by
  unfold Obligations.JsrrLinksBeforeItReadsTheBase
  refine ⟨fun base s => ⟨_, exec_jsrr base s, by simp, fun hne => ?_, fun heq => ?_⟩, decodeWord_jsrrFormat⟩
  · rw [if_neg hne]
    exact goesTo_setPc_saveReturn _ s
  · rw [if_pos heq]
    exact goesTo_setPc_saveReturn _ s

/-- Settles O36: without a mask bit or a flag there is no common bit, so BR is not taken. -/
theorem brWithoutMaskOrFlagDoesNothing : Obligations.BrWithoutMaskOrFlagDoesNothing := by
  unfold Obligations.BrWithoutMaskOrFlagDoesNothing
  refine ⟨fun nzp off s hzero => exec_br_of_not_taken ?_ off, 0#9, by decide⟩
  rcases hzero with rfl | hcond
  · exact branchTaken_of_mask_zero s
  · exact branchTaken_of_cond_zero nzp hcond

/-- Settles O43: without a refresh each load is one write of the stored Word. -/
theorem loadsAwayFromKbsrReadTheStoredWord : Obligations.LoadsAwayFromKbsrReadTheStoredWord := by
  unfold Obligations.LoadsAwayFromKbsrReadTheStoredWord
  refine fun dr base off off6 s => ⟨fun hea => ⟨_, exec_ld dr off s, ?_⟩,
    fun hptr hea => ⟨_, exec_ldi dr off s, ?_⟩, fun hea => ⟨_, exec_ldr dr base off6 s, ?_⟩⟩
  · rw [loadInto_of_ne dr s hea]
    exact writesResult_writeResult _ _ s
  · rw [indirect_of_ne hptr, loadInto_of_ne dr s hea]
    exact writesResult_writeResult _ _ s
  · rw [loadInto_of_ne dr s hea]
    exact writesResult_writeResult _ _ s

end

section
/-! PROOFS. The step in its corner cases (40_fetch_decode.md R120, R128; 20_memory.md R71) and the host's way in. -/

namespace Sys2Proof.Machine

/-- A machine that is not running takes no step (R120). -/
theorem step_of_not_running {s : State} (h : s.run ≠ .running) : step s = .fault .stopped := by
  unfold step
  cases hrun : s.run with
  | running => exact absurd hrun h
  | halted | fatal reason => rfl

/-! ### Fetch (R121, R128) -/

/-- A fetch away from KBSR reads the stored Word and moves `pc` alone. -/
theorem fetch_of_ne {s : State} (h : s.pc ≠ Config.kbsrAddr) : fetch s = (peek s.pc s, setPc (s.pc + 1) s) := by
  rw [fetch_eq_memRead, memRead_of_ne s h]

/-- A fetch at KBSR reads the refreshed value. -/
theorem fetch_at_kbsr {s : State} (h : s.pc = Config.kbsrAddr) :
    fetch s = (if s.console.keyAvailable.1 then Config.kbsrReady else 0x0000#16, setPc 0xFE01#16 (kbsrRefresh s)) := by
  rw [fetch_eq_memRead, h, memRead_kbsr, peek_kbsrRefresh_kbsr]
  rfl

/-- With a key the Word at KBSR is an RTI (D4). -/
theorem step_at_kbsr_of_ready {s : State} (hrun : s.run = .running) (hpc : s.pc = Config.kbsrAddr)
    (hk : s.console.keyAvailable.1 = true) :
    step s = .next (raiseFatal (.invalidOpcode 0x8#4) (setPc 0xFE01#16 (kbsrRefresh s))) := by
  have hdecode : decodeWord Config.kbsrReady = .rti := decodeWord_of_rti (by decide)
  rw [step_of_running hrun, fetch_at_kbsr hpc, hk, if_pos rfl, hdecode, exec_rti]

/-- Without a key the Word at KBSR is a BR with an empty mask, which is never taken (D4). -/
theorem step_at_kbsr_of_notReady {s : State} (hrun : s.run = .running) (hpc : s.pc = Config.kbsrAddr)
    (hk : s.console.keyAvailable.1 = false) : step s = .next (setPc 0xFE01#16 (kbsrRefresh s)) := by
  have hdecode : decodeWord 0x0000#16 = .br 0#3 0#9 := by decide
  rw [step_of_running hrun, fetch_at_kbsr hpc, hk, if_neg Bool.false_ne_true, hdecode]
  exact exec_br_of_not_taken (branchTaken_of_mask_zero _) 0#9

/-! ### A store, then a fetch of its address (R71) -/

/-- The Word that a store puts away from KBSR is the one that a fetch there reads. -/
theorem Stores.fetch {a v : Word} {s t : State} (h : Stores a v s t) (ha : a ≠ Config.kbsrAddr) :
    (fetch (setPc a t)).1 = v := by
  obtain ⟨hcell, -⟩ := h
  rw [fetch_of_ne ha]
  exact hcell

/-! ### Placing a word for the next fetch (log 15) -/

theorem fetchPlace_ne_kbsr (s : State) : s.fetchPlace ≠ Config.kbsrAddr := by
  unfold State.fetchPlace
  split_ifs with hpc
  · decide
  · exact hpc

theorem fetch_withFetchWord (s : State) {w : Nat} (hw : w < 65536) :
    fetch (s.withFetchWord 16 w) =
      (BitVec.ofNat 16 w, setPc ((s.withFetchWord 16 w).pc + 1) (s.withFetchWord 16 w)) := by
  have hpc : (s.withFetchWord 16 w).pc = s.fetchPlace := rfl
  have hcell : peek s.fetchPlace (s.withFetchWord 16 w) = BitVec.ofNat 16 w := by
    simp [State.withFetchWord, Nat.mod_eq_of_lt hw]
  rw [fetch_of_ne (hpc ▸ fetchPlace_ne_kbsr s), hpc, hcell]

theorem decodeTableWord_16 {w : Nat} (hw : w < 65536) :
    decodeTableWord 16 w = some (decodeWord (BitVec.ofNat 16 w)) := by
  have hwords : tableWords 16 w = [BitVec.ofNat 16 w] := by
    simp [tableWords, Nat.mod_eq_of_lt hw]
  rw [decodeTableWord, hwords]
  rfl

end Sys2Proof.Machine

open Sys2Proof Sys2Proof.Machine

/-- Settles O24. -/
theorem stoppedMachineTakesNoStep : Obligations.StoppedMachineTakesNoStep :=
  fun _ => step_of_not_running

/-- Settles O25, by the answer of the key poll. -/
theorem fetchAtKbsrExecutesTheRefreshedValue : Obligations.FetchAtKbsrExecutesTheRefreshedValue := by
  unfold Obligations.FetchAtKbsrExecutesTheRefreshedValue
  intro s hrun hpc
  have hcell := peek_kbsrRefresh_kbsr s
  refine ⟨fun hk => ⟨_, step_at_kbsr_of_ready hrun hpc hk, rfl, rfl, kbsrRefresh_regs s, kbsrRefresh_cond s,
      kbsrRefresh_out s, ?_⟩,
    fun hk => ⟨_, step_at_kbsr_of_notReady hrun hpc hk, (kbsrRefresh_run s).trans hrun, rfl, kbsrRefresh_regs s,
      kbsrRefresh_cond s, kbsrRefresh_out s, ?_, memKeptBut_kbsrRefresh hk⟩⟩
  · rwa [hk, if_pos rfl] at hcell
  · rwa [hk, if_neg Bool.false_ne_true] at hcell

/-- Settles O20: each of the three instructions is one store. -/
theorem storeIsSeenByTheNextFetch : Obligations.StoreIsSeenByTheNextFetch := by
  unfold Obligations.StoreIsSeenByTheNextFetch
  refine fun sr base off off6 s t => ⟨fun h hne => ?_, fun h hne => ?_, fun h hne => ?_⟩
  · rw [exec_st] at h
    cases h
    exact (stores_memWrite _ _ s).fetch hne
  · rw [exec_sti] at h
    cases h
    exact (stores_memWrite _ _ _).fetch hne
  · rw [exec_str] at h
    cases h
    exact (stores_memWrite _ _ s).fetch hne

/-- Settles O27: the word is placed where the fetch does not refresh it, and a table word of 16 bits is one Word. -/
theorem placedWordIsTheNextInstruction : Obligations.PlacedWordIsTheNextInstruction := by
  unfold Obligations.PlacedWordIsTheNextInstruction
  intro s w hw
  refine ⟨_, decodeTableWord_16 hw, ?_⟩
  rw [step_of_running rfl, fetch_withFetchWord s hw]

end

section
/-! PROOFS. GETC, IN, HALT and the invalid vectors (44_trap.md R202, R205, R209, R210; 60_exceptions.md R236). -/

namespace Sys2Proof.Machine

/-! ### A received character (R202, R205) -/

/-- A received character goes to R0, zero-extended (D7), and no flag is set from it (D8). -/
theorem receiveChar_eq (b : Byte) (s : State) : receiveChar b s = writeReg .r0 (zext16 b) s := by
  simp [receiveChar, charWord, Config.getcKeepsHigh]

theorem toNat_readReg_receiveChar (b : Byte) (s : State) : (readReg .r0 (receiveChar b s)).toNat = b.toNat := by
  rw [receiveChar_eq, readReg_writeReg, if_pos rfl, toNat_zext16]

theorem regsKeptBut_receiveChar (b : Byte) (s : State) : RegsKeptBut [.r0] s (receiveChar b s) := by
  intro r hr
  rw [receiveChar_eq, readReg_writeReg, if_neg (List.ne_of_not_mem_cons hr)]

/-- Registers kept by two changes in turn, each but for its own list. -/
theorem RegsKeptBut.trans {ds es : List Reg} {s t u : State} (hst : RegsKeptBut ds s t) (htu : RegsKeptBut es t u) :
    RegsKeptBut (es ++ ds) s u := by
  intro r hr
  rw [List.mem_append, not_or] at hr
  obtain ⟨hes, hds⟩ := hr
  exact (htu r hes).trans (hst r hds)

/-- After the link and a received character R7 holds the post-fetch PC: the character went to R0. -/
theorem readReg_r7_receiveChar (b : Byte) (s : State) : readReg .r7 (receiveChar b s) = readReg .r7 s :=
  regsKeptBut_receiveChar b s .r7 (by decide)

@[simp] theorem receiveChar_pc (b : Byte) (s : State) : (receiveChar b s).pc = s.pc := by rw [receiveChar_eq]; rfl
@[simp] theorem receiveChar_cond (b : Byte) (s : State) : (receiveChar b s).cond = s.cond := by
  rw [receiveChar_eq]; rfl
@[simp] theorem receiveChar_run (b : Byte) (s : State) : (receiveChar b s).run = s.run := by rw [receiveChar_eq]; rfl
@[simp] theorem receiveChar_mem (b : Byte) (s : State) : (receiveChar b s).mem = s.mem := by rw [receiveChar_eq]; rfl
@[simp] theorem receiveChar_out (b : Byte) (s : State) : (receiveChar b s).out = s.out := by rw [receiveChar_eq]; rfl
@[simp] theorem receiveChar_console (b : Byte) (s : State) : (receiveChar b s).console = s.console := by
  rw [receiveChar_eq]; rfl
@[simp] theorem peek_receiveChar (a : Word) (b : Byte) (s : State) : peek a (receiveChar b s) = peek a s := by
  rw [receiveChar_eq]; rfl

/-! ### The services by what `read_char()` answers -/

theorem exec_trapGetc_of_some {s : State} {b : Byte} {c : Console} (h : s.console.readChar = some (b, c)) :
    exec .trapGetc s = .next (receiveChar b (setConsole c (saveReturn s))) := by
  change execTrapGetc s = _
  simp only [execTrapGetc, saveReturn_console, h]

theorem exec_trapGetc_of_none {s : State} (h : s.console.readChar = none) :
    exec .trapGetc s = .fault .inputNeverArrives := by
  change execTrapGetc s = _
  simp only [execTrapGetc, saveReturn_console, h]

theorem exec_trapIn_of_some {s : State} {b : Byte} {c : Console} (h : s.console.readChar = some (b, c)) :
    exec .trapIn s =
      .next (receiveChar b (writeChar b (setConsole c (writeChars Config.inPrompt (saveReturn s))))) := by
  change execTrapIn s = _
  simp only [execTrapIn, writeChars_console, saveReturn_console, h]

theorem exec_trapIn_of_none {s : State} (h : s.console.readChar = none) :
    exec .trapIn s = .fault .inputNeverArrives := by
  change execTrapIn s = _
  simp only [execTrapIn, writeChars_console, saveReturn_console, h]

/-! ### HALT and the invalid vectors: the run state is set after the link (R209, R210) -/

/-- HALT has no message to write (D12). -/
theorem exec_trapHalt (s : State) : exec .trapHalt s = .next (setRun .halted (saveReturn s)) := by
  rw [← writeChars_nil (saveReturn s)]
  rfl

theorem exec_trapOther (v : BitVec 8) (s : State) :
    exec (.trapOther v) s = .next (setRun (.fatal (.invalidTrapVector v)) (saveReturn s)) := rfl

theorem readReg_r7_saveReturn (s : State) : readReg .r7 (saveReturn s) = s.pc := by
  rw [readReg_saveReturn, if_pos rfl]

end Sys2Proof.Machine

open Sys2Proof Sys2Proof.Machine

/-- Settles O45: GETC is the link and then the received character. -/
theorem getcReceivesOneCharacter : Obligations.GetcReceivesOneCharacter := by
  unfold Obligations.GetcReceivesOneCharacter
  intro s b c h
  have hregs : RegsKeptBut [.r7] s (setConsole c (saveReturn s)) := saveReturn_regsKeptBut s
  exact ⟨_, exec_trapGetc_of_some h, toNat_readReg_receiveChar b _,
    (readReg_r7_receiveChar b _).trans (readReg_r7_saveReturn s), hregs.trans (regsKeptBut_receiveChar b _),
    by simp, by simp, fun a => by simp, by simp, by simp, by simp⟩

/-- Settles O50: IN is the link, the prompt, the echo and then the received character. -/
theorem inPromptsEchoesAndReceives : Obligations.InPromptsEchoesAndReceives := by
  unfold Obligations.InPromptsEchoesAndReceives
  intro s b c h
  have hregs : RegsKeptBut [.r7] s (writeChar b (setConsole c (writeChars Config.inPrompt (saveReturn s)))) :=
    saveReturn_regsKeptBut s
  exact ⟨_, exec_trapIn_of_some h, by simp, toNat_readReg_receiveChar b _,
    (readReg_r7_receiveChar b _).trans (readReg_r7_saveReturn s), hregs.trans (regsKeptBut_receiveChar b _),
    by simp, by simp, fun a => by simp, by simp, by simp⟩

/-- Settles O51: both services do what `read_char()` answers, and that is nothing exactly without input. -/
theorem inputServicesHangExactlyWithoutInput : Obligations.InputServicesHangExactlyWithoutInput := by
  unfold Obligations.InputServicesHangExactlyWithoutInput
  intro s
  rw [← Console.readChar_eq_none]
  refine ⟨fun hnone => ⟨exec_trapGetc_of_none hnone, exec_trapIn_of_none hnone⟩, fun hsome => ?_⟩
  obtain ⟨⟨b, c⟩, hread⟩ := Option.ne_none_iff_exists'.mp hsome
  exact ⟨⟨_, exec_trapGetc_of_some hread⟩, ⟨_, exec_trapIn_of_some hread⟩⟩

/-- Settles O55: besides the link only the run state changes, and no step follows it. -/
theorem haltEndsTheRun : Obligations.HaltEndsTheRun := by
  unfold Obligations.HaltEndsTheRun
  intro s
  refine ⟨_, exec_trapHalt s, rfl, readReg_r7_saveReturn s, rfl, saveReturn_regsKeptBut s, rfl, rfl, fun _ => rfl,
    rfl, fun u hstep => ?_⟩
  obtain ⟨hrunning, -⟩ := step_next hstep
  cases hrunning

/-- Settles O56: besides the link only the run state changes. -/
theorem invalidTrapVectorIsFatalAfterTheLink : Obligations.InvalidTrapVectorIsFatalAfterTheLink :=
  fun v s => ⟨_, exec_trapOther v s, rfl, readReg_r7_saveReturn s, rfl, saveReturn_regsKeptBut s, rfl, rfl,
    fun _ => rfl, rfl⟩

end

section
/-! PROOFS. The whole-machine rules (10_state.md R23, R27, R32, R35, R38; 20_memory.md section 2): what each instruction
may change, once for all instructions, and the statements that follow from it. -/

namespace Sys2Proof.Machine

/-! ### What the rules allow an instruction -/

/-- The run state an instruction ends the run in, if it does (R35, D13). -/
def endsRun : Instr → Option RunState
  | .trapHalt => some .halted
  | .rti => some (.fatal (.invalidOpcode 0x8#4))
  | .res => some (.fatal (.invalidOpcode 0xD#4))
  | .trapOther v => some (.fatal (.invalidTrapVector v))
  | .br _ _ | .addReg _ _ _ | .addImm _ _ _ | .ld _ _ | .st _ _ | .jsr _ | .jsrr _ | .andReg _ _ _ | .andImm _ _ _
  | .ldr _ _ _ | .str _ _ _ | .not _ _ | .ldi _ _ | .sti _ _ | .jmp _ | .lea _ _
  | .trapGetc | .trapOut | .trapPuts | .trapIn | .trapPutsp => none

/-- Whether an instruction may append to `out` (R38, D15). -/
def mayAppend : Instr → Bool
  | .trapOut | .trapPuts | .trapIn | .trapPutsp => true
  | .br _ _ | .addReg _ _ _ | .addImm _ _ _ | .ld _ _ | .st _ _ | .jsr _ | .jsrr _ | .andReg _ _ _ | .andImm _ _ _
  | .ldr _ _ _ | .str _ _ _ | .rti | .not _ _ | .ldi _ _ | .sti _ _ | .jmp _ | .res | .lea _ _
  | .trapGetc | .trapHalt | .trapOther _ => false

/-- An instruction's entries in the tables of the whole-machine rules. -/
structure Entries where
  /-- The register whose new value sets the flags (R32). -/
  flagged : Option Reg
  /-- The general registers written (R23). -/
  written : List Reg
  /-- `pc` after the step (R27). -/
  pc : Word
  /-- The run state the instruction ends the run in (R35). -/
  ends : Option RunState
  /-- The address stored to (R183 to R185). -/
  stored : Option Word
  /-- Whether `out` may grow (R38). -/
  appends : Bool

/-- The entries of an instruction, from the state after the fetch. -/
def entries (i : Instr) (s : State) : Entries :=
  ⟨flagDest i, regsWritten i, nextPc i s, endsRun i, storeAddr i s, mayAppend i⟩

/-- From `s` to `t` nothing has changed but what the entries allow, and what they demand has been done. -/
structure Follows (e : Entries) (s t : State) : Prop where
  cond_kept : e.flagged = none → t.cond = s.cond
  cond_set : ∀ dr, e.flagged = some dr → t.cond = condOf (readReg dr t)
  regs : RegsKeptBut e.written s t
  /-- R7 is written by the link alone, when it is not the destination of a flag-setting instruction (R24). -/
  link : e.flagged = none → .r7 ∈ e.written → readReg .r7 t = s.pc
  pc : t.pc = e.pc
  run : t.run = e.ends.getD s.run
  out : ∃ bs, t.out = s.out ++ bs
  out_kept : e.appends = false → t.out = s.out
  cells : ∀ a, e.stored ≠ some a → a ≠ Config.kbsrAddr → a ≠ Config.kbdrAddr → peek a t = peek a s
  wf : s.mem.wf → t.mem.wf

/-! ### Reads (R53, R54) -/

/-- From `s` to `t` there has been nothing but reads of memory. -/
structure ReadsOnly (s t : State) : Prop where
  kept : KeptByAccess s t
  cells : ∀ a, a ≠ Config.kbsrAddr → a ≠ Config.kbdrAddr → peek a t = peek a s
  wf : s.mem.wf → t.mem.wf

theorem ReadsOnly.refl (s : State) : ReadsOnly s s := ⟨.refl s, fun _ _ _ => rfl, id⟩

theorem ReadsOnly.memRead {s t : State} (h : ReadsOnly s t) (a : Word) : ReadsOnly s (memRead a t).2 where
  kept := h.kept.trans (keptByAccess_memRead a t)
  cells b h1 h2 := (afterRead_peek a t h1 h2).trans (h.cells b h1 h2)
  wf hw := afterRead_wf a (h.wf hw)

/-! ### The effects that instructions are made of -/

theorem ReadsOnly.follows_writeResult {s u : State} (h : ReadsOnly s u) (dr : Reg) (v : Word) :
    Follows ⟨some dr, [dr], s.pc, none, none, false⟩ s (writeResult dr v u) := by
  obtain ⟨⟨hregs, -, hpc, hrun, hout⟩, hcells, hwf⟩ := h
  obtain ⟨-, -, hregs', -⟩ := writesResult_writeResult dr v u
  exact
    { cond_kept := by simp
      cond_set := by simp
      regs := fun r hr => (hregs' r hr).trans (hregs r List.not_mem_nil)
      link := by simp
      pc := hpc
      run := hrun
      out := ⟨[], by simpa using hout⟩
      out_kept := fun _ => hout
      cells := fun a _ => hcells a
      wf := hwf }

theorem ReadsOnly.follows_memWrite {s u : State} (h : ReadsOnly s u) (a v : Word) :
    Follows ⟨none, [], s.pc, none, some a, false⟩ s (memWrite a v u) := by
  obtain ⟨⟨hregs, hcond, hpc, hrun, hout⟩, hcells, hwf⟩ := h
  obtain ⟨-, hframe, -⟩ := stores_memWrite a v u
  exact
    { cond_kept := fun _ => hcond
      cond_set := by simp
      regs := hregs
      link := by simp
      pc := hpc
      run := hrun
      out := ⟨[], by simpa [memWrite] using hout⟩
      out_kept := fun _ => hout
      cells := fun b hb h1 h2 => (hframe b fun heq => hb (congrArg some heq.symm)).trans (hcells b h1 h2)
      wf := fun hw => poke_wf (hwf hw) a v }

/-- The effect of BR and JMP. -/
theorem follows_setPc (v : Word) (s : State) : Follows ⟨none, [], v, none, none, false⟩ s (setPc v s) where
  cond_kept _ := rfl
  cond_set := by simp
  regs _ _ := rfl
  link := by simp
  pc := rfl
  run := rfl
  out := ⟨[], by simp⟩
  out_kept _ := rfl
  cells _ _ _ _ := rfl
  wf := id

/-- The effect of the fatal opcodes, and after the link of HALT and the invalid vectors. -/
theorem follows_setRun (r : RunState) (s : State) :
    Follows ⟨none, [], s.pc, some r, none, false⟩ s (setRun r s) where
  cond_kept _ := rfl
  cond_set := by simp
  regs _ _ := rfl
  link := by simp
  pc := rfl
  run := rfl
  out := ⟨[], by simp⟩
  out_kept _ := rfl
  cells _ _ _ _ := rfl
  wf := id

/-- The link comes before what else the linking instructions do, which leaves R7 alone. -/
theorem Follows.after_saveReturn {e : Entries} {s t : State} (h : Follows e (saveReturn s) t)
    (hr7 : .r7 ∉ e.written) : Follows { e with written := .r7 :: e.written } s t where
  cond_kept := h.cond_kept
  cond_set := h.cond_set
  regs r hr := by
    obtain ⟨hne, hnot⟩ := not_or.mp (List.mem_cons.not.mp hr)
    rw [h.regs r hnot, readReg_saveReturn, if_neg hne]
  link _ _ := (h.regs .r7 hr7).trans (readReg_r7_saveReturn s)
  pc := h.pc
  run := h.run
  out := h.out
  out_kept := h.out_kept
  cells := h.cells
  wf := h.wf

theorem follows_writeChar (b : Byte) (s : State) :
    Follows ⟨none, [], s.pc, none, none, true⟩ s (writeChar b s) where
  cond_kept _ := rfl
  cond_set := by simp
  regs _ _ := rfl
  link := by simp
  pc := rfl
  run := rfl
  out := ⟨[b], rfl⟩
  out_kept := by simp
  cells _ _ _ _ := rfl
  wf := id

theorem follows_stringLoop {word : Word → List Byte × Bool} {n : Nat} {a : Word} {s t : State}
    (h : stringLoop word n a s = some t) : Follows ⟨none, [], s.pc, none, none, true⟩ s t := by
  obtain ⟨hregs, hpc, hcond, hrun, hout, hcells, hwf⟩ := stringLoop_frame h
  exact
    { cond_kept := fun _ => hcond
      cond_set := by simp
      regs := fun r _ => congrArg (RegFile.get · r) hregs
      link := by simp
      pc := hpc
      run := hrun
      out := hout
      out_kept := by simp
      cells := fun a _ => hcells a
      wf := hwf }

theorem follows_receiveChar (b : Byte) (c : Console) (s : State) :
    Follows ⟨none, [.r0], s.pc, none, none, false⟩ s (receiveChar b (setConsole c s)) where
  cond_kept _ := receiveChar_cond b _
  cond_set := by simp
  regs := regsKeptBut_receiveChar b (setConsole c s)
  link := by simp
  pc := receiveChar_pc b _
  run := receiveChar_run b _
  out := ⟨[], by simp⟩
  out_kept _ := receiveChar_out b _
  cells a _ _ _ := peek_receiveChar a b _
  wf hw := by rwa [receiveChar_mem, setConsole_mem]

/-- IN writes its prompt and the echo besides. -/
theorem follows_promptAndReceiveChar (p : List Byte) (b : Byte) (c : Console) (s : State) :
    Follows ⟨none, [.r0], s.pc, none, none, true⟩ s
      (receiveChar b (writeChar b (setConsole c (writeChars p s)))) where
  cond_kept _ := receiveChar_cond b _
  cond_set := by simp
  regs := regsKeptBut_receiveChar b (writeChar b (setConsole c (writeChars p s)))
  link := by simp
  pc := receiveChar_pc b _
  run := receiveChar_run b _
  out := ⟨p ++ [b], by simp⟩
  out_kept := by simp
  cells a _ _ _ := peek_receiveChar a b _
  wf hw := by rwa [receiveChar_mem, writeChar_mem, setConsole_mem, writeChars_mem]

/-! ### Every instruction follows its entries -/

theorem r7_not_mem_r0 : Reg.r7 ∉ [Reg.r0] := by decide

theorem nextPc_br (nzp : BitVec 3) (off : BitVec 9) (s : State) :
    nextPc (.br nzp off) s = if branchTaken nzp s then pcRel off s else s.pc := by
  simp only [nextPc, branchTaken, bne_iff_ne, ne_eq, ite_not]
  rfl

/-- The inversion of `exec`: whatever instruction answers a next state, it has changed no more than its entries say. -/
theorem follows_of_exec {i : Instr} {s t : State} (h : exec i s = .next t) : Follows (entries i s) s t := by
  cases i with
  | addReg | addImm | andReg | andImm | not | lea =>
    cases Host.Outcome.next.inj h
    exact (ReadsOnly.refl s).follows_writeResult _ _
  | ld | ldr =>
    cases Host.Outcome.next.inj h
    exact ((ReadsOnly.refl s).memRead _).follows_writeResult _ _
  | ldi =>
    cases Host.Outcome.next.inj h
    exact (((ReadsOnly.refl s).memRead _).memRead _).follows_writeResult _ _
  | st | str =>
    cases Host.Outcome.next.inj h
    exact (ReadsOnly.refl s).follows_memWrite _ _
  | sti =>
    cases Host.Outcome.next.inj h
    exact ((ReadsOnly.refl s).memRead _).follows_memWrite _ _
  | br nzp off =>
    rw [exec_br, ← nextPc_br] at h
    cases h
    exact follows_setPc _ s
  | jmp =>
    cases Host.Outcome.next.inj h
    exact follows_setPc _ s
  | jsr =>
    cases Host.Outcome.next.inj h
    exact (follows_setPc _ (saveReturn s)).after_saveReturn List.not_mem_nil
  | jsrr base =>
    rw [exec_jsrr] at h
    cases h
    exact (follows_setPc _ (saveReturn s)).after_saveReturn List.not_mem_nil
  | rti | res =>
    cases Host.Outcome.next.inj h
    exact follows_setRun _ s
  | trapHalt =>
    rw [exec_trapHalt] at h
    cases h
    exact (follows_setRun _ (saveReturn s)).after_saveReturn List.not_mem_nil
  | trapOther =>
    cases Host.Outcome.next.inj h
    exact (follows_setRun _ (saveReturn s)).after_saveReturn List.not_mem_nil
  | trapOut =>
    cases Host.Outcome.next.inj h
    exact (follows_writeChar _ (saveReturn s)).after_saveReturn List.not_mem_nil
  | trapPuts =>
    have hloop := execTrapPuts_next.mp h
    exact (follows_stringLoop hloop).after_saveReturn List.not_mem_nil
  | trapPutsp =>
    have hloop := execTrapPutsp_next.mp h
    exact (follows_stringLoop hloop).after_saveReturn List.not_mem_nil
  | trapGetc =>
    obtain ⟨b, c, -, rfl⟩ := execTrapGetc_next h
    exact (follows_receiveChar b c (saveReturn s)).after_saveReturn r7_not_mem_r0
  | trapIn =>
    obtain ⟨b, c, -, rfl⟩ := execTrapIn_next h
    exact (follows_promptAndReceiveChar _ b c (saveReturn s)).after_saveReturn r7_not_mem_r0

/-! ### The flags of 10_state.md R30 after a step -/

/-- A flag-setting instruction sets exactly one flag, whatever `cond` was. -/
theorem Follows.oneFlag_of_flagged {e : Entries} {s t : State} (h : Follows e s t) (hflag : e.flagged.isSome = true) :
    oneFlag t.cond = true := by
  obtain ⟨dr, hdr⟩ := Option.isSome_iff_exists.mp hflag
  rw [h.cond_set dr hdr]
  exact oneFlag_condOf _

/-- An instruction keeps `cond` or leaves exactly one flag set. -/
theorem Follows.cond_cases {e : Entries} {s t : State} (h : Follows e s t) :
    t.cond = s.cond ∨ oneFlag t.cond = true := by
  cases hflag : e.flagged with
  | none => exact .inl (h.cond_kept hflag)
  | some dr => exact .inr (h.oneFlag_of_flagged (by rw [hflag]; rfl))

theorem fetch_cond (s : State) : (fetch s).2.cond = s.cond := by
  rw [fetch_eq]
  exact afterRead_cond s.pc s

theorem fetch_wf {s : State} (h : s.mem.wf) : (fetch s).2.mem.wf := by
  rw [fetch_eq]
  exact afterRead_wf s.pc h

/-- A step is a fetch and an instruction that follows its entries. -/
theorem follows_of_step {s t : State} (h : step s = .next t) :
    Follows (entries (decodeWord (fetch s).1) (fetch s).2) (fetch s).2 t :=
  follows_of_exec (step_next h).2

theorem step_inv {s t : State} (hinv : s.Inv) (h : step s = .next t) : t.Inv := by
  obtain ⟨hwf, hlegal⟩ := hinv
  have hfollows := follows_of_step h
  refine ⟨hfollows.wf (fetch_wf hwf), ?_⟩
  rcases hfollows.cond_cases with hkept | hone
  · rwa [hkept, fetch_cond]
  · exact condLegal_of_oneFlag hone

/-! ### The fatal Words (R100) -/

theorem exec_next_of_endsRun {i : Instr} {r : RunState} (h : endsRun i = some r) (s : State) :
    ∃ t, exec i s = .next t ∧ t.run = r ∧ t.pc = s.pc := by
  cases i with
  | trapHalt => cases h; exact ⟨_, exec_trapHalt s, rfl, rfl⟩
  | rti => cases h; exact ⟨_, exec_rti s, rfl, rfl⟩
  | res => cases h; exact ⟨_, exec_res s, rfl, rfl⟩
  | trapOther v => cases h; exact ⟨_, exec_trapOther v s, rfl, rfl⟩
  | _ => cases h

/-- A vector names no service exactly outside 0x20 to 0x25 (R200). -/
theorem isServiceVector_eq_false_iff (v : BitVec 8) :
    isServiceVector v = false ↔ v.toNat < 0x20 ∨ 0x25 < v.toNat := by
  revert v
  decide

theorem endsRun_decodeTrap (v : BitVec 8) (r : FatalReason) :
    endsRun (decodeTrap v) = some (.fatal r) ↔ isServiceVector v = false ∧ .invalidTrapVector v = r := by
  rcases decodeTrap_cases v with ⟨hservice, -⟩ | ⟨hother, heq⟩
  · rw [hservice]
    simp only [isServiceVector, Bool.or_eq_true, beq_iff_eq, or_assoc] at hservice
    rcases hservice with rfl | rfl | rfl | rfl | rfl | rfl <;> simp [decodeTrap, endsRun]
  · simp [heq, hother, endsRun]

theorem toNat_mod_256 (w : Word) : w.toNat % 256 = (fieldVect8 w).toNat := by
  simp [fieldVect8]

/-- The fatal Words are those that decode to an instruction that ends the run in Fatal. -/
theorem endsRun_decodeWord (w : Word) (r : FatalReason) :
    endsRun (decodeWord w) = some (.fatal r) ↔ fatalReasonOf w = some r := by
  unfold fatalReasonOf decodeWord
  rw [toNat_div_4096, toNat_mod_256]
  cases Opcode.ofBits (fieldOp w) with
  | trap =>
    simp only [endsRun_decodeTrap, isServiceVector_eq_false_iff, Opcode.toBits, BitVec.ofNat_toNat, BitVec.setWidth_eq]
    simp
  | add | and => cases fieldImmFlag w <;> simp [endsRun, Opcode.toBits]
  | jsr => cases fieldLongFlag w <;> simp [endsRun, Opcode.toBits]
  | _ => simp [endsRun, Opcode.toBits]

end Sys2Proof.Machine

open Sys2Proof Sys2Proof.Machine

/-- Settles O59: the storage operations keep the canonical form, and `cond` is kept or set to one flag. -/
theorem everyStepKeepsTheInvariant : Obligations.EveryStepKeepsTheInvariant :=
  fun _ _ => step_inv

/-- Settles O7: the fatal Words are those that decode to an instruction with a fatal entry. -/
theorem fatalWordsAreExactlyTheListedOnes : Obligations.FatalWordsAreExactlyTheListedOnes := by
  unfold Obligations.FatalWordsAreExactlyTheListedOnes
  refine fun w s hrun => ⟨fun r hr => exec_next_of_endsRun ((endsRun_decodeWord w r).mpr hr) s, ?_⟩
  intro hnone t h r hfatal
  have hends : (endsRun (decodeWord w)).getD s.run = .fatal r := (follows_of_exec h).run.symm.trans hfatal
  cases hi : endsRun (decodeWord w) with
  | none =>
    rw [hi, Option.getD_none, hrun] at hends
    cases hends
  | some r' =>
    rw [hi, Option.getD_some] at hends
    rw [hends, endsRun_decodeWord, hnone] at hi
    cases hi

/-- Settles O9, from the entries of the instruction. -/
theorem condIsWrittenOnlyByFlagSetters : Obligations.CondIsWrittenOnlyByFlagSetters := by
  unfold Obligations.CondIsWrittenOnlyByFlagSetters
  intro i s t h
  have hfollows := follows_of_exec h
  refine ⟨hfollows.cond_kept, fun dr hdr => ?_⟩
  rw [hfollows.cond_set dr hdr]
  exact flagsSay_condOf _

/-- Settles O10: a flag setter sets one flag, and any other instruction keeps the one there is. -/
theorem oneFlagHoldsFromTheFirstFlagSetterOn : Obligations.OneFlagHoldsFromTheFirstFlagSetterOn := by
  unfold Obligations.OneFlagHoldsFromTheFirstFlagSetterOn
  rintro s t h (hone | hflag)
  · rcases (follows_of_step h).cond_cases with hkept | hset
    · rwa [hkept, fetch_cond]
    · exact hset
  · exact (follows_of_step h).oneFlag_of_flagged hflag

/-- Settles O11, from the entries of the instruction. -/
theorem registersAreWrittenOnlyAsListed : Obligations.RegistersAreWrittenOnlyAsListed :=
  fun _ _ _ h => (follows_of_exec h).regs

/-- Settles O12, from the entries of the instruction. -/
theorem pcAdvancesAsTheTableSays : Obligations.PcAdvancesAsTheTableSays :=
  fun _ _ _ h => (follows_of_exec h).pc

/-- Settles O13: the instructions that are not named have no entry that ends the run. -/
theorem runEndsOnlyByHaltOrFatalDecode : Obligations.RunEndsOnlyByHaltOrFatalDecode := by
  unfold Obligations.RunEndsOnlyByHaltOrFatalDecode
  intro i s t h
  have hrun : t.run = (endsRun i).getD s.run := (follows_of_exec h).run
  refine ⟨?_, ?_, ?_, ?_, fun hhalt hrti hres hother => ?_⟩
  · rintro rfl; exact hrun
  · rintro rfl; exact hrun
  · rintro rfl; exact hrun
  · rintro v rfl; exact hrun
  · have hnone : endsRun i = none := by
      unfold endsRun
      split <;> simp_all
    rw [hrun, hnone, Option.getD_none]

/-- Settles O14: the four named services are the instructions whose entry lets `out` grow. -/
theorem outputOnlyGrowsAndOnlyByTheServices : Obligations.OutputOnlyGrowsAndOnlyByTheServices := by
  unfold Obligations.OutputOnlyGrowsAndOnlyByTheServices
  intro i s t h
  have hfollows := follows_of_exec h
  refine ⟨hfollows.out, fun hout hputs hin hputsp => hfollows.out_kept ?_⟩
  change mayAppend i = false
  unfold mayAppend
  split <;> simp_all

/-- Settles O19, from the entries of the instruction. -/
theorem memoryChangesOnlyByStoresAndTheRefresh : Obligations.MemoryChangesOnlyByStoresAndTheRefresh :=
  fun _ _ _ a h => (follows_of_exec h).cells a

/-- Settles O44: a TRAP links, goes on at `p` and sets no flags, by its entries. -/
theorem everyTrapLinksAndGoesOnAfterItself : Obligations.EveryTrapLinksAndGoesOnAfterItself := by
  unfold Obligations.EveryTrapLinksAndGoesOnAfterItself
  intro i s t h htrap
  have hfollows := follows_of_exec h
  have hentries : flagDest i = none ∧ .r7 ∈ regsWritten i ∧ nextPc i s = s.pc := by
    rcases htrap with rfl | rfl | rfl | rfl | rfl | rfl | ⟨v, rfl⟩ <;> simp [flagDest, regsWritten, nextPc]
  obtain ⟨hflag, hr7, hpc⟩ := hentries
  exact ⟨hfollows.link hflag hr7, hfollows.pc.trans hpc, hfollows.cond_kept hflag⟩

/-- Settles O52: the four services' entries, and OUT and HALT touch no memory. -/
theorem outputServicesKeepRegistersAndMemory : Obligations.OutputServicesKeepRegistersAndMemory := by
  unfold Obligations.OutputServicesKeepRegistersAndMemory
  intro i s t h hservice
  have hfollows := follows_of_exec h
  have hentries : regsWritten i = [.r7] ∧ storeAddr i s = none := by
    rcases hservice with rfl | rfl | rfl | rfl <;> exact ⟨rfl, rfl⟩
  obtain ⟨hregs, hstored⟩ := hentries
  refine ⟨hregs ▸ hfollows.regs, fun a => hfollows.cells a (by simp [entries, hstored]), ?_⟩
  rintro (rfl | rfl)
  · rw [exec_trapOut] at h
    cases h
    exact fun _ => rfl
  · rw [exec_trapHalt] at h
    cases h
    exact fun _ => rfl

end

section
/-! PROOFS. The strings of PUTS and PUTSP (44_trap.md R204, R207, R208): where they end, and that the bounded loop is
the unbounded one of the spec. -/

namespace Sys2Proof.Machine

/-! ### A string away from KBSR -/

/-- The next address of a string (R204). -/
theorem add_one_add_ofNat (a : Word) (k : Nat) : a + 1 + BitVec.ofNat 16 k = a + BitVec.ofNat 16 (k + 1) := by
  rw [BitVec.ofNat_add, BitVec.add_assoc, BitVec.add_comm 1]
  rfl

/-- The bytes of the first `n` words of the string at `a`, as the loop writes them. -/
def stringBytes (word : Word → List Byte × Bool) (a : Word) (s : State) (n : Nat) : List Byte :=
  (List.range n).flatMap fun k => (word (peek (a + BitVec.ofNat 16 k) s)).1

theorem stringBytes_succ (word : Word → List Byte × Bool) (a : Word) (s : State) (n : Nat) :
    stringBytes word a s (n + 1) = (word (peek a s)).1 ++ stringBytes word (a + 1) s n := by
  simp only [stringBytes, List.range_succ_eq_map, List.flatMap_cons, List.flatMap_map, BitVec.add_zero,
    add_one_add_ofNat]

/-- Where no word is at KBSR, the loop reads a storage that does not change: it writes the bytes of the words up to and
with the stop word, and does nothing else. -/
theorem stringLoop_eq_writeChars {word : Word → List Byte × Bool} {n : Nat} {a : Word} {s : State}
    (hne : ∀ k, k ≤ n → a + BitVec.ofNat 16 k ≠ Config.kbsrAddr)
    (hgo : ∀ k, k < n → (word (peek (a + BitVec.ofNat 16 k) s)).2 = true)
    (hstop : (word (peek (a + BitVec.ofNat 16 n) s)).2 = false) :
    stringLoop word (n + 1) a s = some (writeChars (stringBytes word a s (n + 1)) s) := by
  induction n generalizing a s with
  | zero =>
    have ha : a ≠ Config.kbsrAddr := by simpa using hne 0 le_rfl
    have hlast : (word (peek a s)).2 = false := by simpa using hstop
    rw [stringLoop_succ, memRead_of_ne s ha, hlast, if_neg Bool.false_ne_true]
    simp [stringBytes]
  | succ n ih =>
    have ha : a ≠ Config.kbsrAddr := by simpa using hne 0 (Nat.zero_le _)
    have hfirst : (word (peek a s)).2 = true := by simpa using hgo 0 (Nat.succ_pos n)
    have hrest : stringLoop word (n + 1) (a + 1) (writeChars (word (peek a s)).1 s) =
        some (writeChars (stringBytes word (a + 1) s (n + 1)) (writeChars (word (peek a s)).1 s)) := by
      refine ih (fun k hk => ?_) (fun k hk => ?_) ?_ <;> rw [add_one_add_ofNat]
      · exact hne (k + 1) (Nat.succ_le_succ hk)
      · exact hgo (k + 1) (Nat.succ_lt_succ hk)
      · exact hstop
    rw [stringLoop_succ, memRead_of_ne s ha, hfirst, if_pos rfl, hrest, writeChars_append, ← stringBytes_succ]

/-- What PUTS and PUTSP do besides their output: the link, and nothing else (R200). -/
theorem frame_writeChars_saveReturn (bs : List Byte) (s : State) :
    readReg .r7 (writeChars bs (saveReturn s)) = s.pc ∧ RegsKeptBut [.r7] s (writeChars bs (saveReturn s)) ∧
    (writeChars bs (saveReturn s)).cond = s.cond ∧ (writeChars bs (saveReturn s)).pc = s.pc ∧
    MemKept s (writeChars bs (saveReturn s)) ∧ (writeChars bs (saveReturn s)).run = s.run ∧
    (writeChars bs (saveReturn s)).console = s.console :=
  ⟨readReg_r7_saveReturn s, saveReturn_regsKeptBut s, rfl, rfl, fun _ => rfl, rfl, rfl⟩

/-- A string of fewer than 65536 words before its stop word ends within the bound. -/
theorem stringLoop_bound_of_lt {word : Word → List Byte × Bool} {n : Nat} {a : Word} {s t : State} (hn : n < 65536)
    (h : stringLoop word (n + 1) a s = some t) : stringLoop word (stringBound s) a s = some t :=
  stringLoop_mono h (by have := stringBound_pos s; omega)

/-! ### One word of PUTS (R204) -/

theorem putsWord_zero : putsWord 0x0000#16 = ([], false) := rfl

theorem putsWord_of_ne {w : Word} (h : w ≠ 0x0000#16) : putsWord w = ([lo8 w], true) := if_neg h

/-! ### One word of PUTSP (R207) -/

theorem putspWord_of_hi8_zero {w : Word} (h : hi8 w = 0x00#8) : putspWord .lowThenTestHigh w = ([lo8 w], false) :=
  if_pos h

theorem putspWord_of_hi8_ne {w : Word} (h : hi8 w ≠ 0x00#8) : putspWord .lowThenTestHigh w = ([lo8 w, hi8 w], true) :=
  if_neg h

/-- `hi8` is the value divided by 256 (R10). -/
theorem hi8_eq_ofNat_div (w : Word) : hi8 w = BitVec.ofNat 8 (w.toNat / 256) := by
  apply BitVec.eq_of_toNat_eq
  simp [hi8, Nat.shiftRight_eq_div_pow]

theorem hi8_eq_zero_iff (w : Word) : hi8 w = 0x00#8 ↔ w.toNat < 256 := by
  have hlt : w.toNat < 65536 := w.isLt
  rw [← BitVec.toNat_inj, hi8_eq_ofNat_div, BitVec.toNat_ofNat, BitVec.toNat_ofNat]
  omega

/-! ### Strings that end where a stop word stands -/

/-- PUTS on a string of `n` non-zero words and a zero word writes the low bytes of the `n` words. -/
theorem stringBytes_puts {a : Word} {s : State} {n : Nat}
    (hgo : ∀ k, k < n → peek (a + BitVec.ofNat 16 k) s ≠ 0x0000#16)
    (hstop : peek (a + BitVec.ofNat 16 n) s = 0x0000#16) :
    stringBytes putsWord a s (n + 1) = (List.range n).map fun k => lo8 (peek (a + BitVec.ofNat 16 k) s) := by
  have hwords : ∀ k ∈ List.range n, (putsWord (peek (a + BitVec.ofNat 16 k) s)).1 =
      [lo8 (peek (a + BitVec.ofNat 16 k) s)] := by
    intro k hk
    rw [putsWord_of_ne (hgo k (List.mem_range.mp hk))]
  rw [stringBytes, List.range_succ, List.flatMap_append, List.flatMap_singleton, hstop, putsWord_zero,
    List.append_nil, List.flatMap_congr hwords, List.map_eq_flatMap]

/-- PUTSP writes both bytes of the words before its stop word, and the low byte of that. -/
theorem stringBytes_putsp {a : Word} {s : State} {n : Nat}
    (hgo : ∀ k, k < n → hi8 (peek (a + BitVec.ofNat 16 k) s) ≠ 0x00#8)
    (hstop : hi8 (peek (a + BitVec.ofNat 16 n) s) = 0x00#8) :
    stringBytes (putspWord .lowThenTestHigh) a s (n + 1) =
      ((List.range n).flatMap fun k =>
        [lo8 (peek (a + BitVec.ofNat 16 k) s), hi8 (peek (a + BitVec.ofNat 16 k) s)]) ++
      [lo8 (peek (a + BitVec.ofNat 16 n) s)] := by
  have hwords : ∀ k ∈ List.range n, (putspWord .lowThenTestHigh (peek (a + BitVec.ofNat 16 k) s)).1 =
      [lo8 (peek (a + BitVec.ofNat 16 k) s), hi8 (peek (a + BitVec.ofNat 16 k) s)] := by
    intro k hk
    rw [putspWord_of_hi8_ne (hgo k (List.mem_range.mp hk))]
  rw [stringBytes, List.range_succ, List.flatMap_append, List.flatMap_singleton, putspWord_of_hi8_zero hstop,
    List.flatMap_congr hwords]

end Sys2Proof.Machine

open Sys2Proof Sys2Proof.Machine

/-- Settles O47: the loop writes the low bytes of the words before the zero word, after the link. -/
theorem putsWritesTheLowBytesUpToTheZeroWord : Obligations.PutsWritesTheLowBytesUpToTheZeroWord := by
  unfold Obligations.PutsWritesTheLowBytesUpToTheZeroWord
  intro s n hn hne hgo hstop
  have hloop := stringLoop_eq_writeChars (word := putsWord) (a := readReg .r0 s) (s := saveReturn s) hne
    (fun k hk => congrArg Prod.snd (putsWord_of_ne (hgo k hk)))
    (congrArg (fun w => (putsWord w).2) hstop)
  rw [stringBytes_puts (s := saveReturn s) hgo hstop] at hloop
  refine ⟨_, execTrapPuts_next.mpr (stringLoop_bound_of_lt hn hloop), ?_, frame_writeChars_saveReturn _ s⟩
  simp only [writeChars_out, saveReturn_out, lo8_eq_ofNat_mod, peek_saveReturn, stringAddr]

/-- Settles O53: the loop writes both bytes of the words before the stop word and the low byte of that, after the
link. -/
theorem putspWritesBothBytesUpToAZeroHighByte : Obligations.PutspWritesBothBytesUpToAZeroHighByte := by
  unfold Obligations.PutspWritesBothBytesUpToAZeroHighByte
  intro s n hn hne hgo hstop
  have hgo' : ∀ k, k < n → hi8 (peek (stringAddr s k) s) ≠ 0x00#8 := by
    intro k hk
    rw [Ne, hi8_eq_zero_iff, Nat.not_lt]
    exact hgo k hk
  have hstop' : hi8 (peek (stringAddr s n) s) = 0x00#8 := (hi8_eq_zero_iff _).mpr hstop
  have hloop := stringLoop_eq_writeChars (word := putspWord .lowThenTestHigh) (a := readReg .r0 s)
    (s := saveReturn s) hne (fun k hk => congrArg Prod.snd (putspWord_of_hi8_ne (hgo' k hk)))
    (congrArg Prod.snd (putspWord_of_hi8_zero hstop'))
  rw [stringBytes_putsp (s := saveReturn s) hgo' hstop'] at hloop
  refine ⟨_, execTrapPutsp_next.mpr (stringLoop_bound_of_lt hn hloop), ?_, frame_writeChars_saveReturn _ s⟩
  have hlast : lo8 (peek (stringAddr s n) s) = BitVec.ofNat 8 (peek (stringAddr s n) s).toNat := by
    rw [lo8_eq_ofNat_mod, Nat.mod_eq_of_lt hstop]
  rw [← hlast, List.append_assoc]
  simp only [writeChars_out, saveReturn_out, lo8_eq_ofNat_mod, hi8_eq_ofNat_div, peek_saveReturn, stringAddr]

end

section
/-! PROOFS. PUTS and PUTSP are the unbounded loops of the spec (44_trap.md R204, R207, R208; 60_exceptions.md R236):
where the loops end, and the hang. -/

namespace Sys2Proof.Machine

/-! ### PUTS: the bounded loop and the spec's (R204) -/

/-- One turn of the loop of PUTS at the stop word. -/
theorem stringLoop_puts_stop {a : Word} {s : State} (h : (memRead a s).1 = 0x0000#16) (n : Nat) :
    stringLoop putsWord (n + 1) a s = some (memRead a s).2 := by
  rw [stringLoop_succ, h, putsWord_zero, if_neg Bool.false_ne_true, writeChars_nil]

/-- One turn of the loop of PUTS at another word. -/
theorem stringLoop_puts_more {a : Word} {s : State} (h : (memRead a s).1 ≠ 0x0000#16) (n : Nat) :
    stringLoop putsWord (n + 1) a s =
      stringLoop putsWord n (a + 1) (writeChar (lo8 (memRead a s).1) (memRead a s).2) := by
  rw [stringLoop_succ, putsWord_of_ne h, if_pos rfl, ← writeChar_eq_writeChars]

theorem putsRun_of_stringLoop {n : Nat} {a : Word} {s t : State} (h : stringLoop putsWord n a s = some t) :
    PutsRun a s t := by
  induction n generalizing a s with
  | zero => cases h
  | succ n ih =>
    by_cases hstop : (memRead a s).1 = 0x0000#16
    · rw [stringLoop_puts_stop hstop] at h
      cases h
      exact .stop hstop
    · rw [stringLoop_puts_more hstop] at h
      exact .more hstop (ih h)

theorem stringLoop_of_putsRun {a : Word} {s t : State} (h : PutsRun a s t) :
    ∃ n, stringLoop putsWord n a s = some t := by
  induction h with
  | stop hstop => exact ⟨1, stringLoop_puts_stop hstop 0⟩
  | more hmore _ ih =>
    obtain ⟨n, hn⟩ := ih
    exact ⟨n + 1, (stringLoop_puts_more hmore n).trans hn⟩

/-- A loop that stops at 0x0000 alone and ends after any number of words ends within the bound, and alike. -/
theorem StopsAtZeroOnly.ends_within_bound {word : Word → List Byte × Bool} (hw : StopsAtZeroOnly word) {n : Nat}
    {a : Word} {s t : State} (h : stringLoop word n a s = some t) : stringLoop word (stringBound s) a s = some t := by
  cases hbound : stringLoop word (stringBound s) a s with
  | none =>
    rw [stringBound_exact hw hbound n] at h
    cases h
  | some u =>
    rw [← stringLoop_mono hbound (Nat.le_add_left _ n), stringLoop_mono h (Nat.le_add_right n _)]

/-- The bounded loop of PUTS ends exactly where and as the spec's loop does. -/
theorem stringLoop_bound_iff_putsRun {a : Word} {s t : State} :
    stringLoop putsWord (stringBound s) a s = some t ↔ PutsRun a s t := by
  refine ⟨putsRun_of_stringLoop, fun hrun => ?_⟩
  obtain ⟨n, hn⟩ := stringLoop_of_putsRun hrun
  exact putsWord_stopsAtZeroOnly.ends_within_bound hn

/-- PUTS answers the hang exactly when its bounded loop finds no stop word (R208). -/
theorem execTrapPuts_fault {s : State} :
    execTrapPuts s = .fault .stringNeverEnds ↔
      stringLoop putsWord (stringBound (saveReturn s)) (readReg .r0 s) (saveReturn s) = none := by
  rw [execTrapPuts_eq]
  split
  · next t ht =>
    rw [ht]
    constructor <;> intro h <;> cases h
  · next hnone => simp only [hnone]

/-! ### PUTS: two reasons to end (R208) -/

/-- Input that has ended answers only so many key polls with true, so KBSR or KBDR holds a zero in the end. -/
theorem stringLoop_ends_of_ended {a : Word} {s : State} (h : s.console.ended = true) :
    ∃ t, stringLoop putsWord (stringBound s) a s = some t := by
  have hdist : (Config.kbsrAddr - a).toNat < 65536 := (Config.kbsrAddr - a).isLt
  refine putsWord_stopsAtZeroOnly.ends_by_console (P := fun c => c.ended = true)
    (left := fun c => c.charAnswers.length) (fun c b c' hP hk hr _ => Console.ended_left hP hk hr) _ a s h ?_
  simp only [stringBound]
  omega

/-- A zero word outside the keyboard cells is met within one pass of the memory. -/
theorem stringLoop_ends_of_zero {a z : Word} {s : State} (h1 : z ≠ Config.kbsrAddr) (h2 : z ≠ Config.kbdrAddr)
    (h0 : peek z s = 0x0000#16) : ∃ t, stringLoop putsWord (stringBound s) a s = some t := by
  have hdist : (z - a).toNat < 65536 := (z - a).isLt
  have hbound := stringBound_pos s
  exact putsWord_stopsAtZeroOnly.ends_at_zero h1 h2 _ a s h0 (by omega)

/-! ### PUTSP: the bounded loop and the spec's (R207) -/

theorem stringLoop_putsp_stop {a : Word} {s : State} (h : hi8 (memRead a s).1 = 0x00#8) (n : Nat) :
    stringLoop (putspWord .lowThenTestHigh) (n + 1) a s =
      some (writeChar (lo8 (memRead a s).1) (memRead a s).2) := by
  rw [stringLoop_succ, putspWord_of_hi8_zero h, if_neg Bool.false_ne_true, ← writeChar_eq_writeChars]

theorem stringLoop_putsp_more {a : Word} {s : State} (h : hi8 (memRead a s).1 ≠ 0x00#8) (n : Nat) :
    stringLoop (putspWord .lowThenTestHigh) (n + 1) a s =
      stringLoop (putspWord .lowThenTestHigh) n (a + 1)
        (writeChar (hi8 (memRead a s).1) (writeChar (lo8 (memRead a s).1) (memRead a s).2)) := by
  rw [stringLoop_succ, putspWord_of_hi8_ne h, if_pos rfl, writeChar_eq_writeChars, writeChar_eq_writeChars,
    writeChars_append]
  rfl

theorem putspRun_of_stringLoop {n : Nat} {a : Word} {s t : State}
    (h : stringLoop (putspWord .lowThenTestHigh) n a s = some t) : PutspRun a s t := by
  induction n generalizing a s with
  | zero => cases h
  | succ n ih =>
    by_cases hstop : hi8 (memRead a s).1 = 0x00#8
    · rw [stringLoop_putsp_stop hstop] at h
      cases h
      exact .stop hstop
    · rw [stringLoop_putsp_more hstop] at h
      exact .more hstop (ih h)

/-! ### PUTSP always ends, at the keyboard cells at the latest (R208, D5) -/

/-- One turn of the loop of PUTSP, by what its word's high byte is. -/
theorem stringLoop_putsp_turn (n : Nat) (a : Word) (s : State) :
    (∃ t, stringLoop (putspWord .lowThenTestHigh) (n + 1) a s = some t) ∨
    (hi8 (memRead a s).1 ≠ 0x00#8 ∧ ∃ bs, stringLoop (putspWord .lowThenTestHigh) (n + 1) a s =
      stringLoop (putspWord .lowThenTestHigh) n (a + 1) (writeChars bs (memRead a s).2)) := by
  by_cases hstop : hi8 (memRead a s).1 = 0x00#8
  · exact .inl ⟨_, stringLoop_putsp_stop hstop n⟩
  · refine .inr ⟨hstop, [lo8 (memRead a s).1, hi8 (memRead a s).1], ?_⟩
    rw [stringLoop_succ, putspWord_of_hi8_ne hstop, if_pos rfl]

theorem hi8_zext16 (b : Byte) : hi8 (zext16 b) = 0x00#8 := by
  rw [hi8_eq_zero_iff, toNat_zext16]
  exact b.isLt

/-- A word at KBDR with a zero high byte ends the loop there. -/
theorem stringLoop_putsp_ends_at_kbdr {s : State} (h : hi8 (peek Config.kbdrAddr s) = 0x00#8) (n : Nat) :
    ∃ t, stringLoop (putspWord .lowThenTestHigh) (n + 1) Config.kbdrAddr s = some t := by
  have hread : memRead Config.kbdrAddr s = (peek Config.kbdrAddr s, s) := memRead_of_ne s (by decide)
  exact ⟨_, stringLoop_putsp_stop (by rw [hread]; exact h) n⟩

/-- The loop ends at KBSR, which the refresh may have cleared, or within two words, at the byte in KBDR. -/
theorem stringLoop_putsp_ends_at_kbsr (s : State) (n : Nat) :
    ∃ t, stringLoop (putspWord .lowThenTestHigh) (n + 3) Config.kbsrAddr s = some t := by
  rcases stringLoop_putsp_turn (n + 2) Config.kbsrAddr s with hend | ⟨hne, bs, hgo⟩
  · exact hend
  rw [memRead_kbsr] at hne hgo
  have hzero : hi8 0x0000#16 = 0x00#8 := by decide
  have hkbsr : peek Config.kbsrAddr (kbsrRefresh s) ≠ 0x0000#16 := fun h => hne ((congrArg hi8 h).trans hzero)
  obtain ⟨b, c, -, -, -, hkbdr⟩ := kbsrRefresh_of_ne hkbsr
  rw [hgo]
  rcases stringLoop_putsp_turn (n + 1) (Config.kbsrAddr + 1) (writeChars bs (kbsrRefresh s)) with
    hend | ⟨-, cs, hgo'⟩
  · exact hend
  rw [hgo', memRead_of_ne _ (by decide)]
  refine stringLoop_putsp_ends_at_kbdr ?_ n
  rw [peek_writeChars, peek_writeChars, hkbdr, hi8_zext16]

/-- From any address the loop ends on its way up to KBSR, or there. -/
theorem stringLoop_putsp_ends {n : Nat} {a : Word} {s : State} (h : (Config.kbsrAddr - a).toNat + 3 ≤ n) :
    ∃ t, stringLoop (putspWord .lowThenTestHigh) n a s = some t := by
  induction n generalizing a s with
  | zero => omega
  | succ n ih =>
    by_cases ha : Config.kbsrAddr = a
    · subst ha
      obtain ⟨t, ht⟩ := stringLoop_putsp_ends_at_kbsr s 0
      exact ⟨t, stringLoop_mono ht (by omega)⟩
    · rcases stringLoop_putsp_turn n a s with hend | ⟨-, bs, hgo⟩
      · exact hend
      · have hnearer := toNat_sub_succ ha
        rw [hgo]
        exact ih (by omega)

end Sys2Proof.Machine

open Sys2Proof Sys2Proof.Machine

/-- Settles O48: a zero word is met in the first pass, and input that ends leaves one in a keyboard cell. -/
theorem putsEndsWhereAStopWordCanBeMet : Obligations.PutsEndsWhereAStopWordCanBeMet := by
  unfold Obligations.PutsEndsWhereAStopWordCanBeMet
  intro s hreason
  have hends : ∃ t, stringLoop putsWord (stringBound (saveReturn s)) (readReg .r0 s) (saveReturn s) = some t := by
    rcases hreason with ⟨z, h1, h2, h0⟩ | hended
    · exact stringLoop_ends_of_zero h1 h2 h0
    · exact stringLoop_ends_of_ended hended
  obtain ⟨t, ht⟩ := hends
  exact ⟨t, execTrapPuts_next.mpr ht⟩

/-- Settles O49: the bounded loop is the spec's, so PUTS answers what that loop ends in, and the hang where it ends in
nothing. -/
theorem putsRefinesTheUnboundedLoop : Obligations.PutsRefinesTheUnboundedLoop := by
  unfold Obligations.PutsRefinesTheUnboundedLoop
  refine fun s => ⟨fun t => execTrapPuts_next.trans stringLoop_bound_iff_putsRun, execTrapPuts_fault.trans ?_⟩
  simp only [← stringLoop_bound_iff_putsRun, Option.eq_none_iff_forall_ne_some, ne_eq]

/-- Settles O54: the loop ends within one pass of the memory, and it is the spec's. -/
theorem putspAlwaysEndsAsTheUnboundedLoop : Obligations.PutspAlwaysEndsAsTheUnboundedLoop := by
  unfold Obligations.PutspAlwaysEndsAsTheUnboundedLoop
  intro s
  have hdist : (Config.kbsrAddr - readReg .r0 s).toNat < 65536 := (Config.kbsrAddr - readReg .r0 s).isLt
  have hbound := stringBound_pos (saveReturn s)
  obtain ⟨t, ht⟩ := stringLoop_putsp_ends (n := stringBound (saveReturn s)) (a := readReg .r0 s) (s := saveReturn s)
    (by omega)
  exact ⟨t, execTrapPutsp_next.mpr ht, putspRun_of_stringLoop ht⟩

end
